-- ==== Sys2Proof/Word.lean ====
section
/-!
DEFINITION. The words of the engine (spec/00_scope.md rules R8, R9): 8-bit command and response
words, 4-bit fields, and the decimal digit, which is also the group element.
Bit 0 is the least significant bit; every value is unsigned.
-/

namespace Sys2Proof

/-- A command word or a response word, 8 bits (R8, R80, R81). -/
abbrev Byte := BitVec 8

/-- A 4-bit field: the operation code, the operand `ARG`, the result `DATA` (R80, R81). -/
abbrev Nibble := BitVec 4

/-- A digit or group element: "an integer in [0,9]. No other value is valid input to any table
lookup" (R12). A type of ten values, as 93_implementation_defined.md U5 asks (log 8). -/
abbrev Digit := Fin 10

end Sys2Proof
end

