-- ==== Sys2Proof/Config.lean ====
section
/-!
DEFINITION. The two parameters of the engine: the ROM contents `TABLES` and the bit `HAS_WRAPPER`
(spec/00_scope.md rules R6, R7; 92_eei_decisions.md D15, D28 name both as parameters a model
takes). The values this hardware takes are in Machine/Params.lean.
-/

namespace Sys2Proof

/-- The contents of the three ROMs (R6, R51). The address of a cell is its index tuple; every cell
holds a value in [0,9]; there is no cell outside these shapes. -/
structure Tables where
  /-- `D`, 10 by 10: the multiplication table. -/
  d : Vector (Vector Digit 10) 10
  /-- `INV`, 10 entries: the inverse table. -/
  inv : Vector Digit 10
  /-- `NUM`, 8 by 10: the permutation table, one row per position modulo 8. -/
  num : Vector (Vector Digit 10) 8
  deriving DecidableEq, Repr

/-- The parameters of the step (R11, R21): fixed for one engine, changed by no command, no fault
and no reset. -/
structure Config where
  /-- `TABLES` (R6). -/
  tables : Tables
  /-- `HAS_WRAPPER` (R7): true when GEN and VAL exist. -/
  hasWrapper : Bool
  deriving DecidableEq, Repr

end Sys2Proof
end

