-- ==== Sys2Proof/Machine/Params.lean ====
section
/-!
DEFINITION. The values this hardware takes for its two parameters (spec/20_memory.md rules R52,
R53, R54; 00_scope.md rule R7) and the three ROM reads (20_memory.md rules R59, R60, R61).
PRESUMED: the cells are the spec's own "[from general knowledge, not in source]" (log 6).
-/

namespace Sys2Proof.Machine

/-- Rows 0 to 4 of `D` (R52): a rotation times any element. -/
def romDRotations : Vector (Vector Digit 10) 5 :=
  #v[#v[0, 1, 2, 3, 4, 5, 6, 7, 8, 9],
     #v[1, 2, 3, 4, 0, 6, 7, 8, 9, 5],
     #v[2, 3, 4, 0, 1, 7, 8, 9, 5, 6],
     #v[3, 4, 0, 1, 2, 8, 9, 5, 6, 7],
     #v[4, 0, 1, 2, 3, 9, 5, 6, 7, 8]]

/-- Rows 5 to 9 of `D` (R52): a reflection times any element. -/
def romDReflections : Vector (Vector Digit 10) 5 :=
  #v[#v[5, 9, 8, 7, 6, 0, 4, 3, 2, 1],
     #v[6, 5, 9, 8, 7, 1, 0, 4, 3, 2],
     #v[7, 6, 5, 9, 8, 2, 1, 0, 4, 3],
     #v[8, 7, 6, 5, 9, 3, 2, 1, 0, 4],
     #v[9, 8, 7, 6, 5, 4, 3, 2, 1, 0]]

/-- The default contents of `D` (R52). -/
def romD : Vector (Vector Digit 10) 10 := romDRotations ++ romDReflections

/-- The default contents of `INV` (R53). -/
def romInv : Vector Digit 10 := #v[0, 4, 3, 2, 1, 5, 6, 7, 8, 9]

/-- The default contents of `NUM` (R54). -/
def romNum : Vector (Vector Digit 10) 8 :=
  #v[#v[0, 1, 2, 3, 4, 5, 6, 7, 8, 9],
     #v[1, 5, 7, 6, 2, 8, 3, 0, 9, 4],
     #v[5, 8, 0, 3, 7, 9, 6, 1, 4, 2],
     #v[8, 9, 1, 6, 0, 4, 3, 5, 2, 7],
     #v[9, 4, 5, 3, 1, 2, 6, 8, 7, 0],
     #v[4, 2, 8, 6, 5, 7, 3, 9, 0, 1],
     #v[2, 7, 9, 3, 8, 0, 6, 4, 1, 5],
     #v[7, 0, 4, 6, 9, 1, 3, 2, 5, 8]]

/-- The default of `TABLES` (R6, D28). -/
def standardTables : Tables := { d := romD, inv := romInv, num := romNum }

/-- "Value for this hardware: `1`" (R7, D15). -/
def standardWrapper : Bool := true

/-- The parameters of this hardware (R6, R7). -/
def standardConfig : Config := { tables := standardTables, hasWrapper := standardWrapper }

/-- The ROM read `D[a][b]` (R59): row `a`, column `b`. -/
def readD (t : Tables) (a b : Digit) : Digit := t.d[a][b]

/-- The ROM read `INV[x]` (R60). -/
def readInv (t : Tables) (x : Digit) : Digit := t.inv[x]

/-- The ROM read `NUM[p][v]` (R61): row `p`, column `v`; a 3-bit row index is never out of range
(R62). -/
def readNum (t : Tables) (p : BitVec 3) (v : Digit) : Digit := (t.num[p.toNat]'p.isLt)[v]

end Sys2Proof.Machine
end

