-- ==== Sys2Proof/Syntax.lean ====
section
/-!
DEFINITION. The six commands of the command set VHF-1, one constructor per row of
spec/opcode_table.json (spec/30_encoding.md rule R85). There are no addressing modes and one
operand, the digit of ABS (R83).
-/

namespace Sys2Proof

/-- A command. The docstring of a constructor names its mnemonic and its rule. -/
inductive Instr where
  /-- `INIT` (R100): start an invocation. -/
  | init
  /-- `ABS v` (R101): absorb one digit. The operand is the raw 4-bit field, 0 to 15, since 10 to 15
  decode as ABS and fault (R83, R85). -/
  | abs (v : Nibble)
  /-- `RDC` (R120): read the checksum. -/
  | rdc
  /-- `GEN` (R121): generate the check digit. -/
  | gen
  /-- `VAL` (R122): validate. -/
  | val
  /-- `STAT` (R140): read the status register. -/
  | stat
  deriving DecidableEq, Repr

end Sys2Proof
end

