-- ==== Sys2Proof/WellFormed.lean ====
section
/-!
DEFINITION. Which commands an engine has words for, and which ROM contents are legal.
Instructions: GEN and VAL exist only with the wrapper (spec/00_scope.md rule R7, 30_encoding.md
rules R87(c), R89). Tables: the invariants the source states (20_memory.md rules R55, R56, R57)
and the further properties its claims need (R58), as decidable checks a claim takes as premises.
-/

namespace Sys2Proof

/-- Does the engine have a word for this command (R85, R89)? Every operand of ABS is encodable. -/
def Instr.wf (hasWrapper : Bool) : Instr → Bool
  | .init | .abs _ | .rdc | .stat => true
  | .gen | .val => hasWrapper

namespace Tables

open Machine

/-- A line of ten cells "is a permutation of {0..9}": each value stands once and none is missing. -/
abbrev IsPermutation (line : Digit → Digit) : Prop :=
  (∀ x y, line x = line y → x = y) ∧ ∀ z, ∃ x, line x = z

/-- R55: "every row and column of `d` is a permutation of {0..9}". -/
abbrev LatinSquare (t : Tables) : Prop :=
  (∀ a, IsPermutation fun b => readD t a b) ∧ ∀ b, IsPermutation fun a => readD t a b

/-- R56: "`d[x][inv[x]] == 0` for all x". -/
abbrev RightInverses (t : Tables) : Prop := ∀ x, readD t x (readInv t x) = 0

/-- R57: "each of the 8 rows is a bijection on {0..9}". -/
abbrev BijectiveRows (t : Tables) : Prop :=
  ∀ p : Fin 8, IsPermutation fun v => readNum t (BitVec.ofFin p) v

/-- The three invariants the source states (R55, R56, R57). -/
abbrev WellFormed (t : Tables) : Prop := LatinSquare t ∧ RightInverses t ∧ BijectiveRows t

/-- R58(a): `D` is associative. -/
abbrev Associative (t : Tables) : Prop :=
  ∀ a b c, readD t (readD t a b) c = readD t a (readD t b c)

/-- R58(b): 0 is the two-sided identity. -/
abbrev ZeroIdentity (t : Tables) : Prop := ∀ x, readD t 0 x = x ∧ readD t x 0 = x

/-- R58(c): `INV` is also a left inverse. -/
abbrev LeftInverses (t : Tables) : Prop := ∀ x, readD t (readInv t x) x = 0

/-- R58(d): `NUM[0]` is the identity permutation. -/
abbrev RowZeroIdentity (t : Tables) : Prop := ∀ v, readNum t 0#3 v = v

/-- R58 items (a) to (d), which make generate-then-validate work. -/
abbrev GroupLaws (t : Tables) : Prop :=
  Associative t ∧ ZeroIdentity t ∧ LeftInverses t ∧ RowZeroIdentity t

/-- R58(f): what makes adjacent transpositions detectable, also across the wrap from row 7 to
row 0. -/
abbrev AntiSymmetric (t : Tables) : Prop :=
  ∀ (p : Fin 8) (x y : Digit), x ≠ y →
    readD t (readNum t (BitVec.ofFin p) x) (readNum t (BitVec.ofFin p + 1#3) y) ≠
      readD t (readNum t (BitVec.ofFin p) y) (readNum t (BitVec.ofFin p + 1#3) x)

end Tables

end Sys2Proof
end

