-- ==== Sys2Proof/Decode.lean ====
section
/-!
DEFINITION. The command encoding (spec/30_encoding.md): format `C` (R80), the opcode map (R85), the
decode procedure, total on all 256 words (R86), the reserved words by name (R87), and the encoder.
-/

namespace Sys2Proof

/-- `OP = cmd[7:4]` (R80). -/
def opField (w : Byte) : Nibble := w.extractLsb' 4 4

/-- `ARG = cmd[3:0]`, an unsigned 4-bit value, not scaled and not extended (R80, R83). -/
def argField (w : Byte) : Nibble := w.extractLsb' 0 4

/-- Why a word is reserved (R87). -/
inductive Reserved where
  /-- R87(a): `OP` in 0x6 to 0xF. -/
  | unusedOp
  /-- R87(b): a non-zero `ARG` on a command without operand. -/
  | nonZeroArg
  /-- R87(c): the word of GEN or VAL on an engine with `HAS_WRAPPER = 0`. -/
  | noWrapper
  deriving DecidableEq, Repr

/-- What a command word is: a command, or a reserved word with the reason. -/
inductive Decoded where
  | instr (i : Instr)
  | reserved (r : Reserved)
  deriving DecidableEq, Repr

/-- A wrapper command exists only with the wrapper (R86(3), R87(c)). -/
def wrapped (hasWrapper : Bool) (i : Instr) : Decoded :=
  if hasWrapper then .instr i else .reserved .noWrapper

/-- Which class of reserved word a word matched by no row belongs to (R87(a), R87(b)). -/
def reservedClass (w : Byte) : Reserved :=
  if 6#4 ≤ opField w then .unusedOp else .nonZeroArg

/-- The decode procedure, in the order R86 gives. -/
def decode (hasWrapper : Bool) (w : Byte) : Decoded :=
  if opField w = 0x1#4 then .instr (.abs (argField w))
  else if w = 0x00#8 then .instr .init
  else if w = 0x20#8 then .instr .rdc
  else if w = 0x50#8 then .instr .stat
  else if w = 0x30#8 then wrapped hasWrapper .gen
  else if w = 0x40#8 then wrapped hasWrapper .val
  else .reserved (reservedClass w)

/-- The word of a command (R85): `{OP, ARG}`. -/
def encode : Instr → Byte
  | .init => 0x00#8
  | .abs v => 0x1#4 ++ v
  | .rdc => 0x20#8
  | .gen => 0x30#8
  | .val => 0x40#8
  | .stat => 0x50#8

/-- A row of the opcode map (R85): "a word `w` selects the row when `w & mask == match`". -/
structure OpcodeRow where
  pattern : Byte
  mask : Byte
  deriving DecidableEq, Repr

/-- Does the word select the row (R85)? -/
def OpcodeRow.selects (r : OpcodeRow) (w : Byte) : Bool := w &&& r.mask == r.pattern

/-- The row of each command in the opcode map (R85). -/
def opcodeRow : Instr → OpcodeRow
  | .init => ⟨0x00#8, 0xFF#8⟩
  | .abs _ => ⟨0x10#8, 0xF0#8⟩
  | .rdc => ⟨0x20#8, 0xFF#8⟩
  | .gen => ⟨0x30#8, 0xFF#8⟩
  | .val => ⟨0x40#8, 0xFF#8⟩
  | .stat => ⟨0x50#8, 0xFF#8⟩

/-- The instruction the decoder of this hardware (`HAS_WRAPPER = 1`, R7, log 7) reads from a table
word of `nbits` bits. A command is one 8-bit word (R80); bits at `nbits` and above count as 0. -/
def decodeTableWord (nbits w : Nat) : Option Instr :=
  match decode Machine.standardWrapper (BitVec.ofNat 8 (w % 2 ^ nbits)) with
  | .instr i => some i
  | .reserved _ => none

end Sys2Proof
end

