-- ==== Sys2Proof/Machine/State.lean ====
section
/-!
DEFINITION. The state of one engine instance (spec/10_state.md rule R20) as plain data, beside the
parameters of the step (R21, log 1) and the two abstract ports of 92_eei_decisions.md D4 (log 2,
log 3); why a step can stop (it never does, log 11); the state after reset (R32, R33).
-/

namespace Sys2Proof.Machine

/-- The three faults the engine raises (60_exceptions.md R181). They are recorded in the state, not
outcomes of the model: fault entry is a next state (R186). -/
inductive FaultCause where
  /-- R182: ABS with an operand of 10 to 15. -/
  | digitRange
  /-- R183: a result asked for with no digit absorbed. -/
  | emptySequence
  /-- R184: a reserved command word. -/
  | illegalCommand
  deriving DecidableEq, Repr

/-- What the world outside the engine does to it, between two steps. -/
inductive HostInput where
  /-- The host presents a command word (00_scope.md R5, R11). -/
  | command (w : Byte)
  /-- Reset is applied (70_reset_and_hazards.md R210). -/
  | reset
  deriving DecidableEq, Repr

/-- The engine. `acc` to `cause` are the whole architectural state (R20); `params` are the
parameters of the step, which nothing changes (R21); `input` and `responses` are the model's own,
the host's side of the command port and of the response port. -/
structure State where
  /-- `TABLES` and `HAS_WRAPPER` (R21). -/
  params : Config
  /-- `ACC`, the accumulator (R22). -/
  acc : Digit
  /-- `POS`, the processing position modulo 8 (R23). -/
  pos : BitVec 3
  /-- `NE`, the non-empty flag (R25). -/
  ne : Bool
  /-- `FAULT`, sticky (R26). -/
  fault : Bool
  /-- `CAUSE`, the code of the first fault since reset (R27). -/
  cause : BitVec 2
  /-- What the host has presented and the engine has not served, oldest first. -/
  input : List HostInput
  /-- The responses given so far, oldest first. -/
  responses : List Byte
  deriving DecidableEq, Repr

/-- Faults of the model that stop the machine: none. The engine's own faults are recorded in the
state (R186) and every command is executed and answered (R82, R221), so this type is empty. -/
inductive Fault where
  deriving DecidableEq, Repr

/-- Refusals of the model. -/
inductive Refusal where
  /-- An instruction without a meaning yet, raised by `exec` alone; safe. No arm raises it. -/
  | notModelled (mnemonic : String)
  deriving DecidableEq, Repr

/-- The reset state of an engine with the given parameters (R32, R33), nothing presented and
nothing answered yet. -/
def State.launch (p : Config) : State :=
  { params := p, acc := 0, pos := 0#3, ne := false, fault := false, cause := 0#2,
    input := [], responses := [] }

/-- This hardware right after reset: `(ACC, POS, NE, FAULT, CAUSE) = (0, 0, 0, 0, 0)` (R34, R212). -/
def State.reset : State := State.launch standardConfig

end Sys2Proof.Machine
end

