-- ==== Sys2Proof/Machine/Operands.lean ====
section
/-!
DEFINITION. The one operand form, the digit of ABS (spec/30_encoding.md rule R83), and the result
encodings of the `DATA` field (R84).
-/

namespace Sys2Proof.Machine

/-- "`v` at most 9 is a Digit"; 10 to 15 is no digit (R83). -/
def digitOperand (v : Nibble) : Option Digit :=
  if h : v.toNat < 10 then some ⟨v.toNat, h⟩ else none

/-- "A group element or digit is its own 4-bit value" (R84). -/
def digitBits (d : Digit) : Nibble := BitVec.ofNat 4 d.val

/-- "No other verdict values exist" (R84, R122). -/
inductive Verdict where
  | valid
  | invalid
  deriving DecidableEq, Repr

/-- "A verdict is `0x1` for `Valid` and `0x0` for `Invalid`" (R84). -/
def Verdict.bits : Verdict → Nibble
  | .valid => 0x1#4
  | .invalid => 0x0#4

/-- "An acknowledgement (INIT, ABS) is `0x0`" (R84). -/
def ackBits : Nibble := 0x0#4

end Sys2Proof.Machine
end

