-- ==== Sys2Proof/Machine/Flags.lean ====
section
/-!
DEFINITION. The flags and the status register. There are no condition codes (spec/10_state.md rule
R28); NE, FAULT and CAUSE are state, and `STATUS` is a view of the state (R29). The one comparison
the engine makes, `ACC == 0`, is returned by VAL and stored nowhere (R28, R122).
-/

namespace Sys2Proof.Machine

/-- One flag as a bit. -/
def flagBit (b : Bool) : BitVec 1 := BitVec.ofBool b

/-- `STATUS = {FAULT, CAUSE[1:0], NE, HAS_WRAPPER, POS[2:0]}` (R29, R140). -/
def statusByte (s : State) : Byte :=
  flagBit s.fault ++ s.cause ++ flagBit s.ne ++ flagBit s.params.hasWrapper ++ s.pos

/-- The verdict on an accumulator value: Valid exactly when it is 0 (R122). -/
def verdictOf (acc : Digit) : Verdict := if acc = 0 then .valid else .invalid

/-- The code of a fault in `CAUSE` and in `rsp[6:5]` (60_exceptions.md R181). -/
def FaultCause.code : FaultCause → BitVec 2
  | .digitRange => 1#2
  | .emptySequence => 2#2
  | .illegalCommand => 3#2

end Sys2Proof.Machine
end

