-- ==== Sys2Proof/Machine/Ops.lean ====
section
/-!
DEFINITION. The operations the commands share: giving a response (spec/30_encoding.md rules R81,
R82), fault entry and the faulted answer (60_exceptions.md rules R186, R187), reset
(70_reset_and_hazards.md rule R210), and the two groups of register writes (40_accumulate.md rules
R100, R101). Every read in a command sees the state before it (00_scope.md R10).
-/

namespace Sys2Proof.Machine

/-- Every meaning ends in this: a next state, since the step is total (R11, R82). -/
abbrev Result := Host.Outcome State Fault Refusal

/-- The data response of a running command, `{0b0000, DATA}` (R81 with `F = 0`; R100, R101, R120 to
R122). -/
def dataByte (data : Nibble) : Byte := 0b0000#4 ++ data

/-- The response of a faulted engine, `{0b1, CAUSE[1:0], 0b0, 0b1111}` (R186, R187). -/
def faultByte (cause : BitVec 2) : Byte := 0b1#1 ++ cause ++ 0b0#1 ++ 0b1111#4

/-- `rsp <- r`: one response, after all earlier ones (R82). -/
def respond (r : Byte) (s : State) : State := { s with responses := s.responses ++ [r] }

/-- `raise k`, fault entry (R186): FAULT and CAUSE are written, ACC, POS and NE keep their values,
the response is the fault byte, and nothing is saved anywhere else. -/
def raise (k : FaultCause) (s : State) : State :=
  respond (faultByte k.code) { s with fault := true, cause := k.code }

/-- What a faulted engine does with every word but `0x50` (R187): nothing but the fault byte. -/
def answerFaulted (s : State) : State := respond (faultByte s.cause) s

/-- The effect of a command with `FAULT = 0`, and R187 with `FAULT = 1`. -/
def whenRunning (s : State) (effect : State) : Result :=
  .next (if s.fault then answerFaulted s else effect)

/-- "if NE = 0 then raise EmptySequence" (R183), else the effect. -/
def whenNonEmpty (s : State) (effect : State) : State :=
  if s.ne then effect else raise .emptySequence s

/-- A command of the wrapper: without it the command is reserved and raises IllegalCommand (R7,
R184; log 7). -/
def whenWrapper (s : State) (effect : State) : State :=
  if s.params.hasWrapper then effect else raise .illegalCommand s

/-- A reserved word: IllegalCommand when running (R87, R184), the fault byte when faulted (R187). -/
def execReserved (s : State) : Result := whenRunning s (raise .illegalCommand s)

/-- The register writes of INIT (R100). -/
def startSequence (s : State) : State := { s with acc := 0, pos := 0#3, ne := false }

/-- The register writes of ABS with a digit (R101): the left index of `D` is the old accumulator,
the right index the permuted digit; POS wraps from 7 to 0. -/
def absorb (v : Digit) (s : State) : State :=
  { s with
    acc := readD s.params.tables s.acc (readNum s.params.tables s.pos v)
    pos := s.pos + 1#3
    ne := true }

/-- Reset (R210): clears the five state elements, FAULT and CAUSE among them; no response; the ROMs
and the host's side of the ports are untouched (log 5). It is the only way out of the fault state
(R188). -/
def applyReset (s : State) : State :=
  { s with acc := 0, pos := 0#3, ne := false, fault := false, cause := 0#2 }

/-- The engine takes what the host presented; `rest` is what is left. -/
def takeInput (rest : List HostInput) (s : State) : State := { s with input := rest }

/-- The host presents events, after those it presented before. -/
def present (events : List HostInput) (s : State) : State :=
  { s with input := s.input ++ events }

end Sys2Proof.Machine
end

