-- ==== Sys2Proof/Machine/Accumulate.lean ====
section
/-!
DEFINITION. The accumulate family: INIT and ABS (spec/40_accumulate.md rules R100, R101).
-/

namespace Sys2Proof.Machine

/-- INIT (R100): `ACC`, `POS`, `NE` become 0; acknowledged. FAULT and CAUSE are not written. -/
def execInit (s : State) : Result := whenRunning s (respond (dataByte ackBits) (startSequence s))

/-- ABS v (R101): the range check comes before both ROM reads; then one turn of the fold. -/
def execAbs (v : Nibble) (s : State) : Result :=
  whenRunning s
    (match digitOperand v with
    | none => raise .digitRange s
    | some d => respond (dataByte ackBits) (absorb d s))

end Sys2Proof.Machine
end

