-- ==== Sys2Proof/Machine/Result.lean ====
section
/-!
DEFINITION. The result family: RDC, GEN and VAL (spec/41_result.md rules R120, R121, R122). None
writes any state (R124).
-/

namespace Sys2Proof.Machine

/-- RDC (R120): the accumulator. -/
def execRdc (s : State) : Result :=
  whenRunning s (whenNonEmpty s (respond (dataByte (digitBits s.acc)) s))

/-- GEN (R121): the inverse of the accumulator; only with the wrapper. -/
def execGen (s : State) : Result :=
  whenRunning s (whenWrapper s (whenNonEmpty s
    (respond (dataByte (digitBits (readInv s.params.tables s.acc))) s)))

/-- VAL (R122): Valid exactly when the accumulator is 0; only with the wrapper. -/
def execVal (s : State) : Result :=
  whenRunning s (whenWrapper s (whenNonEmpty s
    (respond (dataByte (verdictOf s.acc).bits) s)))

end Sys2Proof.Machine
end

