-- ==== Sys2Proof/Machine/System.lean ====
section
/-!
DEFINITION. The system family: STAT (spec/42_system.md rule R140).
-/

namespace Sys2Proof.Machine

/-- STAT (R140): the status register, the same way with `FAULT = 0` and with `FAULT = 1`. -/
def execStat (s : State) : Result := .next (respond (statusByte s) s)

end Sys2Proof.Machine
end

