-- ==== Sys2Proof/Machine/Dispatch.lean ====
section
/-! DEFINITION. One arm per command (spec/30_encoding.md rule R85), each one call of its meaning. -/

namespace Sys2Proof.Machine

def exec (i : Instr) (s : State) : Host.Outcome State Fault Refusal :=
  match i with
  | .init => Sys2Proof.Machine.execInit s
  | .abs v => Sys2Proof.Machine.execAbs v s
  | .rdc => Sys2Proof.Machine.execRdc s
  | .gen => Sys2Proof.Machine.execGen s
  | .val => Sys2Proof.Machine.execVal s
  | .stat => Sys2Proof.Machine.execStat s

end Sys2Proof.Machine
end

