-- ==== Sys2Proof/Machine/Port.lean ====
section
/-!
DEFINITION. The command port: what one step does with what the host presented (spec/00_scope.md rules
R5, R11; 20_memory.md rule R64; 30_encoding.md rules R82, R86).
-/

namespace Sys2Proof.Machine

/-- One command word: the decoded command, or IllegalCommand for a reserved word (R86). With
`FAULT = 1` both branches do what R187 says. -/
def execWord (w : Byte) (s : State) : Result :=
  match decode s.params.hasWrapper w with
  | .instr i => exec i s
  | .reserved _ => execReserved s

/-- One event of the host: a command is executed and answered; reset is applied (R210). -/
def serve (e : HostInput) (s : State) : Result :=
  match e with
  | .command w => execWord w s
  | .reset => .next (applyReset s)

/-- The oldest event not yet served, one per step, in the order presented (R64, R82). With nothing
presented the engine waits for the next command and its state does not change (R211, R221;
DESIGN CHOICE, log 4). -/
def serveNext (s : State) : Result :=
  match s.input with
  | [] => .next s
  | e :: rest => serve e (takeInput rest s)

/-- A command word presented ahead of everything else: a command is one 8-bit word (R80). -/
def presentFirst (nbits w : Nat) (s : State) : State :=
  { s with input := .command (BitVec.ofNat 8 (w % 2 ^ nbits)) :: s.input }

end Sys2Proof.Machine
end

