-- ==== Sys2Proof/Machine/Step.lean ====
section
/-!
DEFINITION. The step of the machine (spec/00_scope.md rule R11) and where it takes its next command
from. The engine fetches nothing (10_state.md rule R24): each command arrives from the host.
-/

namespace Sys2Proof.Machine

/-- One step: the next event of the host (R11, R64). -/
def step (s : State) : Host.Outcome State Fault Refusal := serveNext s

/-- The state in which the host presents the command word `w` next (log 2). -/
def State.withFetchWord (s : State) (nbits w : Nat) : State := presentFirst nbits w s

end Sys2Proof.Machine
end

