-- ==== Sys2Proof/Machine/Sequence.lean ====
section
/-!
DEFINITION. The sequence-level operations (spec/45_sequence_operations.md): the processing order, the
source's three functions `fold`, `computeCheckDigit`, `validate`, and the command streams that
realise them (30_encoding.md rules R91, R92). They specify results; the engine never calls them.
-/

namespace Sys2Proof.Machine

/-- A sequence of digits of length at least 1 (R12). `fold` of the empty sequence has no value in
the spec (R151, 91_not_in_source.md N10), so the type has no empty sequence (log 10). -/
structure DigitSeq where
  first : Digit
  rest : List Digit
  deriving DecidableEq, Repr

/-- The digits, position 0 first. -/
def DigitSeq.toList (q : DigitSeq) : List Digit := q.first :: q.rest

/-- `order` (R150): the first character stays first, the rest is reversed. The host applies it. -/
def order (s : DigitSeq) : DigitSeq := { first := s.first, rest := s.rest.reverse }

/-- The fold's loop (R151) from accumulator `c` and position `p` modulo 8 on. -/
def foldFrom (t : Tables) : Digit → BitVec 3 → List Digit → Digit
  | c, _, [] => c
  | c, p, v :: vs => foldFrom t (readD t c (readNum t p v)) (p + 1#3) vs

/-- `fold` (R151). -/
def fold (t : Tables) (q : DigitSeq) : Digit := foldFrom t 0 0#3 q.toList

/-- `computeCheckDigit` (R153): the number's digits in processing order, the placeholder 0 put
before them. -/
def computeCheckDigit (t : Tables) (b : List Digit) : Digit :=
  readInv t (fold t { first := 0, rest := b })

/-- `validate` (R154). -/
def validate (t : Tables) (q : DigitSeq) : Verdict :=
  if fold t q = 0 then .valid else .invalid

/-- The group product of the permuted digits from position `p` on, taken left to right, the empty
product being 0 (the closed form of R151). -/
def permutedProduct (t : Tables) : BitVec 3 → List Digit → Digit
  | _, [] => 0
  | p, v :: vs => readD t (readNum t p v) (permutedProduct t (p + 1#3) vs)

/-- `SEQ v0 ... vk` (R91). -/
def seqStream (vs : List Nibble) : List Instr := vs.map .abs

/-- `FOLD v0 ... vk` (R91): the source's `fold`. -/
def foldStream (vs : List Nibble) : List Instr := .init :: (seqStream vs ++ [.rdc])

/-- `COMPUTE v1 ... vk` (R91): the source's `computeCheckDigit`, the placeholder made explicit. -/
def computeStream (vs : List Nibble) : List Instr :=
  .init :: .abs 0#4 :: (seqStream vs ++ [.gen])

/-- `VALIDATE v0 ... vk` (R91): the source's `validate`. -/
def validateStream (vs : List Nibble) : List Instr := .init :: (seqStream vs ++ [.val])

/-- A sequence of digits as ABS operands (R84). -/
def DigitSeq.operands (q : DigitSeq) : List Nibble := q.toList.map digitBits

/-- `COMPUTE_STR` (R92): the string's first digit is the host's own placeholder. -/
def computeStrStream (s : DigitSeq) : List Instr :=
  .init :: (seqStream (order s).operands ++ [.gen])

/-- `VALIDATE_STR` (R92). -/
def validateStrStream (s : DigitSeq) : List Instr := validateStream (order s).operands

/-- A command stream as what the host presents. -/
def commands (is : List Instr) : List HostInput := is.map fun i => .command (encode i)

end Sys2Proof.Machine
end

