-- ==== Sys2Proof/Machine/Assembler.lean ====
section
/-!
DEFINITION. The textual notation of command streams (spec/30_encoding.md rules R90, R91, R92): one
command per line, upper-case mnemonics, `;` to the end of the line a comment, pseudo-instructions
with fixed expansions. Text is a list of characters. What R90 leaves open is log 13.
-/

namespace Sys2Proof.Machine

/-- The mnemonic of a command (R90). -/
def mnemonic : Instr → List Char
  | .init => ['I', 'N', 'I', 'T']
  | .abs _ => ['A', 'B', 'S']
  | .rdc => ['R', 'D', 'C']
  | .gen => ['G', 'E', 'N']
  | .val => ['V', 'A', 'L']
  | .stat => ['S', 'T', 'A', 'T']

/-- The characters of a line before its comment (R90). -/
def stripComment : List Char → List Char
  | [] => []
  | c :: cs => if c = ';' then [] else c :: stripComment cs

/-- The words of a line, `word` being the one begun (DESIGN CHOICE: separated by spaces, log 13). -/
def splitWords : List Char → List Char → List (List Char)
  | word, [] => if word = [] then [] else [word]
  | word, c :: cs =>
    if c = ' ' then (if word = [] then splitWords [] cs else word :: splitWords [] cs)
    else splitWords (word ++ [c]) cs

/-- An ASCII character '0' to '9' as its digit (R92). -/
def charDigit (c : Char) : Option Digit :=
  if h : '0'.toNat ≤ c.toNat ∧ c.toNat < '0'.toNat + 10 then
    some ⟨c.toNat - '0'.toNat, by omega⟩
  else none

/-- A decimal numeral after the value `n` of the digits before it. -/
def decimalFrom : Nat → List Char → Option Nat
  | n, [] => some n
  | n, c :: cs =>
    match charDigit c with
    | none => none
    | some d => decimalFrom (10 * n + d.val) cs

/-- "`<v>` a decimal numeral 0 to 15" (R90). -/
def parseOperand : List Char → Option Nibble
  | [] => none
  | c :: cs =>
    match decimalFrom 0 (c :: cs) with
    | none => none
    | some n => if n ≤ 15 then some (BitVec.ofNat 4 n) else none

/-- A hexadecimal digit, either case. -/
def hexDigit (c : Char) : Option Nibble :=
  match charDigit c with
  | some d => some (digitBits d)
  | none =>
    if 'A'.toNat ≤ c.toNat ∧ c.toNat ≤ 'F'.toNat then some (BitVec.ofNat 4 (c.toNat - 'A'.toNat + 10))
    else if 'a'.toNat ≤ c.toNat ∧ c.toNat ≤ 'f'.toNat then
      some (BitVec.ofNat 4 (c.toNat - 'a'.toNat + 10))
    else none

/-- The `0xNN` of `.word 0xNN` (R90). -/
def parseByte : List Char → Option Byte
  | ['0', 'x', hi, lo] =>
    match hexDigit hi, hexDigit lo with
    | some h, some l => some (h ++ l)
    | _, _ => none
  | _ => none

/-- Every word by the same reader, or none if one does not read. -/
def parseAll {α : Type} (parse : List Char → Option α) : List (List Char) → Option (List α)
  | [] => some []
  | w :: ws =>
    match parse w, parseAll parse ws with
    | some a, some as => some (a :: as)
    | _, _ => none

/-- The host's digit string: at least one character, each '0' to '9' (R92). -/
def digitString (cs : List Char) : Option DigitSeq :=
  match parseAll (fun w => match w with | [c] => charDigit c | _ => none) (cs.map fun c => [c]) with
  | some (d :: ds) => some { first := d, rest := ds }
  | _ => none

/-- The quotation mark around a string operand (R92). -/
def quoteMark : Char := Char.ofNat 34

/-- A digit string in quotation marks. -/
def parseQuoted : List Char → Option DigitSeq
  | [] => none
  | q :: cs =>
    if q = quoteMark ∧ cs.getLast? = some quoteMark then digitString cs.dropLast else none

/-- A command without operand, by its mnemonic. -/
def plainCommand (w : List Char) : Option Instr :=
  [Instr.init, .rdc, .gen, .val, .stat].find? fun i => mnemonic i = w

/-- A pseudo-instruction over operands (R91). SEQ, FOLD and VALIDATE need at least one operand. -/
def pseudoStream (w : List Char) (vs : List Nibble) : Option (List Instr) :=
  if w = ['C', 'O', 'M', 'P', 'U', 'T', 'E'] then some (computeStream vs)
  else if vs = [] then none
  else if w = ['S', 'E', 'Q'] then some (seqStream vs)
  else if w = ['F', 'O', 'L', 'D'] then some (foldStream vs)
  else if w = ['V', 'A', 'L', 'I', 'D', 'A', 'T', 'E'] then some (validateStream vs)
  else none

/-- A pseudo-instruction over a digit string (R92). -/
def stringStream (w : List Char) (s : DigitSeq) : Option (List Instr) :=
  if w = ['C', 'O', 'M', 'P', 'U', 'T', 'E', '_', 'S', 'T', 'R'] then some (computeStrStream s)
  else if w = ['V', 'A', 'L', 'I', 'D', 'A', 'T', 'E', '_', 'S', 'T', 'R'] then
    some (validateStrStream s)
  else none

/-- The words of a command stream. -/
def words (is : List Instr) : List Byte := is.map encode

/-- A line with the operands `args` after the word `w` (R90, R91, R92). R90 says of `.word 0xNN` only
that a reserved word is written so; that it may write any of the 256 bytes, and that the operands of a
pseudo-instruction range over 0 to 15 as those of ABS, is the model's choice (DESIGN CHOICE, log 13). -/
def assembleWords (w : List Char) (args : List (List Char)) : Option (List Byte) :=
  match args, plainCommand w with
  | [], some i => some [encode i]
  | [a], none =>
    if w = ['.', 'w', 'o', 'r', 'd'] then (parseByte a).map fun b => [b]
    else if w = mnemonic (.abs 0#4) then (parseOperand a).map fun v => [encode (.abs v)]
    else
      match parseQuoted a with
      | some s => (stringStream w s).map words
      | none => ((parseAll parseOperand [a]).bind (pseudoStream w)).map words
  | as, none => ((parseAll parseOperand as).bind (pseudoStream w)).map words
  | _ :: _, some _ => none

/-- The words a line stands for; an empty or comment line stands for none; a line that is no line
of the notation gives `none`. -/
def assembleLine (line : List Char) : Option (List Byte) :=
  match splitWords [] (stripComment line) with
  | [] => some []
  | w :: args => assembleWords w args

/-- The lines of a text, `line` being the one begun. -/
def splitLines : List Char → List Char → List (List Char)
  | line, [] => [line]
  | line, c :: cs => if c = '\n' then line :: splitLines [] cs else splitLines (line ++ [c]) cs

/-- The command words of a whole text (R90: one command per line). -/
def assemble (text : List Char) : Option (List Byte) :=
  (parseAll assembleLine (splitLines [] text)).map List.flatten

/-- The decimal numeral of a 4-bit operand. -/
def operandText (v : Nibble) : List Char :=
  if v.toNat < 10 then [Char.ofNat ('0'.toNat + v.toNat)]
  else ['1', Char.ofNat ('0'.toNat + (v.toNat - 10))]

/-- A command as the notation writes it (R90). -/
def commandText : Instr → List Char
  | .abs v => mnemonic (.abs v) ++ ' ' :: operandText v
  | i => mnemonic i

end Sys2Proof.Machine
end

