-- ==== Sys2Proof/Machine/Instances.lean ====
section
/-!
DEFINITION. Several engine instances side by side (spec/60_exceptions.md rule R195): each has its own
state and its own host side; an instance takes a step when its host gives it one. Which instance
moves next is the outside world's choice (log 12).
-/

namespace Sys2Proof.Machine

/-- Instance `k` takes one step and the others none. An instance that does not exist takes none. -/
def stepInstance (k : Nat) (system : List State) : Host.Outcome (List State) Fault Refusal :=
  match system[k]? with
  | none => .next system
  | some s =>
    match step s with
    | .next t => .next (system.set k t)
    | .fault r => .fault r
    | .refused r => .refused r

end Sys2Proof.Machine
end

