-- ==== Sys2Proof/Machine/Run.lean ====
section
/-!
DEFINITION. Several steps in a row: commands execute one at a time, in the order presented
(spec/20_memory.md rule R64). The host's `Host.Core.run` over this machine's own state type.
-/

namespace Sys2Proof.Machine

/-- `k` steps, stopping at the first fault or refusal of the model. -/
def run : Nat → State → Result
  | 0, s => .next s
  | k + 1, s =>
    match step s with
    | .next t => run k t
    | .fault r => .fault r
    | .refused r => .refused r

end Sys2Proof.Machine
end

