-- ==== Sys2Proof/Safety.lean ====
section
/-!
DEFINITION. What counts as a safe run: a run that does not fault (spec/60_exceptions.md rule R189:
"every claim about an invocation's result takes `FAULT = 0` at its end as a premise"), what the host
owes for it (70_reset_and_hazards.md rule R218, 30_encoding.md rule R87), and the invariant that
rules out the states no run reaches.
-/

namespace Sys2Proof.Machine

/-- The invariant of the reachable states: `CAUSE` is 0 exactly when `FAULT = 0` (10_state.md R27,
60_exceptions.md R181), and with no digit absorbed the fold has not begun (R25, R32, R100). -/
abbrev State.Inv (s : State) : Prop :=
  (s.fault = false ↔ s.cause = 0#2) ∧ (s.ne = false → s.acc = 0 ∧ s.pos = 0#3)

/-- The host keeps its side of the contract (R218, R87) from a point where `ne` says whether a digit
has been absorbed: every operand of ABS is a digit, no result is asked for before the first digit,
no word is reserved. -/
def hostKeeps (hasWrapper : Bool) : Bool → List HostInput → Bool
  | _, [] => true
  | _, .reset :: es => hostKeeps hasWrapper false es
  | ne, .command w :: es =>
    match decode hasWrapper w with
    | .instr .init => hostKeeps hasWrapper false es
    | .instr (.abs v) => (digitOperand v).isSome && hostKeeps hasWrapper true es
    | .instr .rdc => ne && hostKeeps hasWrapper ne es
    | .instr .gen => ne && hostKeeps hasWrapper ne es
    | .instr .val => ne && hostKeeps hasWrapper ne es
    | .instr .stat => hostKeeps hasWrapper ne es
    | .reserved _ => false

/-- A command word that writes no state when it runs: RDC, GEN, VAL or STAT (R124, R140). -/
def isRead (w : Byte) : Bool := w == 0x20#8 || w == 0x30#8 || w == 0x40#8 || w == 0x50#8

/-- Two states that agree on the parameters and the whole architectural state (R20), whatever their
ports hold. -/
abbrev State.SameEngine (s t : State) : Prop :=
  s.params = t.params ∧ s.acc = t.acc ∧ s.pos = t.pos ∧ s.ne = t.ne ∧ s.fault = t.fault ∧
    s.cause = t.cause

end Sys2Proof.Machine
end

