-- ==== Sys2Proof/Certificates/Slice0/Obligations.lean ====
section
/-!
DEFINITION. The statements for the provers. Each docstring names the rule of spec/ it formalises or
rests on. A run is `Machine.run`, the host's `Host.Core.run` over this
machine (Laws/Step.lean); a premise `FAULT = 0` stands where the rule says
the command is "executed with `FAULT = 0`". A numeric claim about `standardTables` or
`standardConfig` rests on log 6 (the cells are the spec's general knowledge) and log 7.
The fields `params`, `input` and `responses` are the model's own (logs 1, 2, 3): wherever a statement
says that what the host still presents or an earlier response stays, that clause is the model's choice.
-/

open Sys2Proof Sys2Proof.Machine

/-! ### Reset -/

/-- R32: after reset `ACC`, `POS`, `NE` are 0, whatever the parameters, in the reset state and after
the reset event. -/
def Obligations.ResetZeroesAccPosNe : Prop :=
  (∀ p : Config, (State.launch p).acc = 0 ∧ (State.launch p).pos = 0#3 ∧ (State.launch p).ne = false) ∧
  State.reset = State.launch standardConfig ∧
  ∀ (s : State) (rest : List HostInput), ∃ t,
    step { s with input := .reset :: rest } = .next t ∧ t.acc = 0 ∧ t.pos = 0#3 ∧ t.ne = false

/-- R33: after reset `FAULT = 0` and `CAUSE = 0`, and reset is the only event that clears them. -/
def Obligations.OnlyResetClearsFaultAndCause : Prop :=
  (∀ p : Config, (State.launch p).fault = false ∧ (State.launch p).cause = 0#2) ∧
  (∀ (s : State) (rest : List HostInput), ∃ t,
    step { s with input := .reset :: rest } = .next t ∧ t.fault = false ∧ t.cause = 0#2) ∧
  ∀ s t : State, step s = .next t →
    (s.fault = true → t.fault = false → s.input.head? = some .reset) ∧
    (s.cause ≠ 0#2 → t.cause = 0#2 → s.input.head? = some .reset)

/-- Derived from R210 and log 5. R210: what the reset event writes, that it gives no response and does
not touch the ROMs, and that no command clears `FAULT`. That it leaves what the host still presents and
the earlier responses is the model's choice (log 5, DESIGN CHOICE). -/
def Obligations.ResetEventClearsTheEngine : Prop :=
  (∀ (s : State) (rest : List HostInput), step { s with input := .reset :: rest } =
    .next { s with acc := 0, pos := 0#3, ne := false, fault := false, cause := 0#2, input := rest }) ∧
  ∀ (s : State) (w : Byte) (rest : List HostInput), s.fault = true → ∃ t,
    step { s with input := .command w :: rest } = .next t ∧ t.fault = true

/-- R34: from a running engine INIT leaves exactly what reset leaves, but for the response. -/
def Obligations.InitLeavesTheResetState : Prop :=
  ∀ s : State, s.Inv → s.fault = false →
    exec .init s =
      .next { s with acc := 0, pos := 0#3, ne := false, fault := false, cause := 0#2,
                     responses := s.responses ++ [0x00#8] }

/-! ### The commands -/

/-- R100: INIT. -/
def Obligations.InitStartsAnInvocation : Prop :=
  encode .init = 0x00#8 ∧
  (∀ hw, decode hw 0x00#8 = .instr .init) ∧
  (∀ s : State, s.fault = false →
    exec .init s =
      .next { s with acc := 0, pos := 0#3, ne := false, responses := s.responses ++ [0x00#8] }) ∧
  ∀ (s : State) (a : Nibble) (rest : List HostInput), s.fault = false → a ≠ 0#4 →
    step { s with input := .command (0x0#4 ++ a) :: rest } =
      .next { s with input := rest, fault := true, cause := 3#2, responses := s.responses ++ [0xEF#8] }

/-- R101: ABS, with a digit and with an operand of 10 to 15, for every table contents. R101's values
and corner cases on the supplied tables are AbsZeroIsNeutralOnlyAtTheStart. -/
def Obligations.AbsAbsorbsOneDigit : Prop :=
  (∀ v : Nibble, encode (.abs v) = 0x10#8 + v.setWidth 8) ∧
  (∀ (hw : Bool) (v : Nibble), decode hw (0x10#8 + v.setWidth 8) = .instr (.abs v)) ∧
  (∀ (s : State) (v : Nibble) (h : v.toNat < 10), s.fault = false →
    exec (.abs v) s =
      .next { s with
        acc := readD s.params.tables s.acc (readNum s.params.tables s.pos ⟨v.toNat, h⟩)
        pos := BitVec.ofNat 3 ((s.pos.toNat + 1) % 8)
        ne := true
        responses := s.responses ++ [0x00#8] }) ∧
  ∀ (s : State) (v : Nibble), s.fault = false → 9#4 < v →
    exec (.abs v) s =
      .next { s with fault := true, cause := 1#2, responses := s.responses ++ [0xAF#8] }

/-- R101 corner cases (a), (b), (c), on the standard tables (log 6). -/
def Obligations.AbsZeroIsNeutralOnlyAtTheStart : Prop :=
  (List.ofFn fun p : Fin 8 => readNum standardTables (BitVec.ofFin p) 0) = [0, 1, 5, 8, 9, 4, 2, 7] ∧
  (∀ s : State, s.params.tables = standardTables → s.fault = false → s.acc = 0 → s.pos = 0#3 →
    exec (.abs 0#4) s =
      .next { s with pos := 1#3, ne := true, responses := s.responses ++ [0x00#8] }) ∧
  ∀ (s : State) (d : Digit), s.fault = false → s.pos = 7#3 → ∃ t,
    exec (.abs (digitBits d)) s = .next t ∧ t.pos = 0#3 ∧ t.fault = false ∧ t.cause = s.cause

/-- R120: RDC. -/
def Obligations.RdcReturnsTheAccumulator : Prop :=
  encode .rdc = 0x20#8 ∧
  (∀ hw, decode hw 0x20#8 = .instr .rdc) ∧
  (∀ s : State, s.fault = false → s.ne = true →
    exec .rdc s =
      .next { s with responses := s.responses ++ [0b0000#4 ++ BitVec.ofNat 4 s.acc.val] }) ∧
  ∀ s : State, s.fault = false → s.ne = false →
    exec .rdc s =
      .next { s with fault := true, cause := 2#2, responses := s.responses ++ [0xCF#8] }

/-- Derived from R121, R184 and log 7. R121: GEN, with the wrapper; without it its word is reserved.
R184: the command then raises IllegalCommand; that the meaning itself checks the bit is log 7. -/
def Obligations.GenReturnsTheInverse : Prop :=
  encode .gen = 0x30#8 ∧
  decode true 0x30#8 = .instr .gen ∧
  decode false 0x30#8 = .reserved .noWrapper ∧
  (∀ s : State, s.fault = false → s.params.hasWrapper = true → s.ne = true →
    exec .gen s =
      .next { s with responses :=
        s.responses ++ [0b0000#4 ++ BitVec.ofNat 4 (readInv s.params.tables s.acc).val] }) ∧
  (∀ s : State, s.fault = false → s.params.hasWrapper = true → s.ne = false →
    exec .gen s =
      .next { s with fault := true, cause := 2#2, responses := s.responses ++ [0xCF#8] }) ∧
  ∀ s : State, s.fault = false → s.params.hasWrapper = false →
    exec .gen s =
      .next { s with fault := true, cause := 3#2, responses := s.responses ++ [0xEF#8] }

/-- Derived from R122, R184 and log 7. R122: VAL, with the wrapper; without it its word is reserved.
R184: the command then raises IllegalCommand; that the meaning itself checks the bit is log 7. -/
def Obligations.ValReturnsTheVerdict : Prop :=
  encode .val = 0x40#8 ∧
  decode true 0x40#8 = .instr .val ∧
  decode false 0x40#8 = .reserved .noWrapper ∧
  (∀ s : State, s.fault = false → s.params.hasWrapper = true → s.ne = true →
    exec .val s =
      .next { s with responses := s.responses ++ [if s.acc = 0 then 0x01#8 else 0x00#8] }) ∧
  (∀ s : State, s.fault = false → s.params.hasWrapper = true → s.ne = false →
    exec .val s =
      .next { s with fault := true, cause := 2#2, responses := s.responses ++ [0xCF#8] }) ∧
  ∀ s : State, s.fault = false → s.params.hasWrapper = false →
    exec .val s =
      .next { s with fault := true, cause := 3#2, responses := s.responses ++ [0xEF#8] }

/-- R140 and R29: STAT returns the status register in both fault states, the register's fields, and
its value after reset. -/
def Obligations.StatReturnsTheStatusRegister : Prop :=
  encode .stat = 0x50#8 ∧
  (∀ hw, decode hw 0x50#8 = .instr .stat) ∧
  (∀ s : State, ∃ r : Byte,
    exec .stat s = .next { s with responses := s.responses ++ [r] } ∧
    r.getLsbD 7 = s.fault ∧
    r.extractLsb' 5 2 = s.cause ∧
    r.getLsbD 4 = s.ne ∧
    r.getLsbD 3 = s.params.hasWrapper ∧
    r.extractLsb' 0 3 = s.pos) ∧
  (∀ p : Config, exec .stat (State.launch p) =
    .next { State.launch p with responses := [if p.hasWrapper then 0x08#8 else 0x00#8] }) ∧
  ∀ (s : State) (a : Nibble) (rest : List HostInput), s.fault = false → a ≠ 0#4 →
    step { s with input := .command (0x5#4 ++ a) :: rest } =
      .next { s with input := rest, fault := true, cause := 3#2, responses := s.responses ++ [0xEF#8] }

/-- R183: EmptySequence on each of the three result words, presented to a running engine with no
digit absorbed, and on no other command word. -/
def Obligations.ResultOfTheEmptySequenceFaults : Prop :=
  (∀ (s : State) (w : Byte) (rest : List HostInput), s.fault = false → s.ne = false →
    w = 0x20#8 ∨ (s.params.hasWrapper = true ∧ (w = 0x30#8 ∨ w = 0x40#8)) →
    step { s with input := .command w :: rest } =
      .next { s with input := rest, fault := true, cause := 2#2, responses := s.responses ++ [0xCF#8] }) ∧
  ∀ (s : State) (w : Byte) (rest : List HostInput) (t : State), s.fault = false →
    step { s with input := .command w :: rest } = .next t → t.fault = true → t.cause = 2#2 →
    s.ne = false ∧ (w = 0x20#8 ∨ w = 0x30#8 ∨ w = 0x40#8)

/-- R87 and R184: every reserved word raises IllegalCommand on a running engine. The three classes
are written on the bits of the word, not on the decoder's answer. -/
def Obligations.ReservedWordsRaiseIllegalCommand : Prop :=
  ∀ (s : State) (w : Byte) (rest : List HostInput), s.fault = false →
    (6 ≤ (w.extractLsb' 4 4).toNat ∨
      ((w.extractLsb' 4 4).toNat ∈ [0, 2, 3, 4, 5] ∧ w.extractLsb' 0 4 ≠ 0#4) ∨
      (s.params.hasWrapper = false ∧ (w = 0x30#8 ∨ w = 0x40#8))) →
    step { s with input := .command w :: rest } =
      .next { s with input := rest, fault := true, cause := 3#2, responses := s.responses ++ [0xEF#8] }

/-- R181, R185: on a running engine each fault code is raised by exactly the words and conditions of
R181's table, its code stands in `rsp[6:5]`, and otherwise no fault is raised and `CAUSE` stays. -/
def Obligations.FaultCodesNameTheirConditions : Prop :=
  ∀ (s : State) (w : Byte) (rest : List HostInput), s.fault = false → ∃ t r,
    step { s with input := .command w :: rest } = .next t ∧
    t.responses = s.responses ++ [r] ∧
    ((t.fault = true ∧ t.cause = 1#2) ↔ (w.extractLsb' 4 4 = 1#4 ∧ 9#4 < w.extractLsb' 0 4)) ∧
    ((t.fault = true ∧ t.cause = 2#2) ↔
      (s.ne = false ∧ (w = 0x20#8 ∨ (s.params.hasWrapper = true ∧ (w = 0x30#8 ∨ w = 0x40#8))))) ∧
    ((t.fault = true ∧ t.cause = 3#2) ↔
      (6 ≤ (w.extractLsb' 4 4).toNat ∨
        ((w.extractLsb' 4 4).toNat ∈ [0, 2, 3, 4, 5] ∧ w.extractLsb' 0 4 ≠ 0#4) ∨
        (s.params.hasWrapper = false ∧ (w = 0x30#8 ∨ w = 0x40#8)))) ∧
    (t.fault = true → t.cause ≠ 0#2 ∧ r.extractLsb' 5 2 = t.cause) ∧
    (t.fault = false → t.cause = s.cause ∧ (s.cause = 0#2 → r.extractLsb' 5 2 = 0#2))

/-! ### Encoding -/

/-- R85, R86: a word decodes to a command exactly when the engine has the command and the word is
its encoding; so decoding an encoded command gives it back with every operand, and each word has one
meaning. -/
def Obligations.DecodeAndEncodeAgree : Prop :=
  ∀ (hw : Bool) (w : Byte) (i : Instr),
    decode hw w = .instr i ↔ (i.wf hw = true ∧ encode i = w)

/-- R85: the rows of the opcode map do not overlap, and a word selects a row exactly when it decodes
(with the wrapper) to a command of that row. -/
def Obligations.OpcodeMapRowsSelectTheirCommands : Prop :=
  (∀ (i j : Instr) (w : Byte), (opcodeRow i).selects w = true → (opcodeRow j).selects w = true →
    opcodeRow i = opcodeRow j) ∧
  ∀ (i : Instr) (w : Byte), (opcodeRow i).selects w = true ↔
    ∃ j, decode true w = .instr j ∧ opcodeRow j = opcodeRow i

/-- Words written out bit by bit from R80 and R85, one or more of each family, and reserved ones. -/
def Obligations.WrittenOutWordsDecode : Prop :=
  decode true 0b00000000#8 = .instr .init ∧
  decode true 0b00010110#8 = .instr (.abs 6#4) ∧
  decode true 0b00011111#8 = .instr (.abs 15#4) ∧
  decode true 0b00100000#8 = .instr .rdc ∧
  decode true 0b00110000#8 = .instr .gen ∧
  decode true 0b01000000#8 = .instr .val ∧
  decode true 0b01010000#8 = .instr .stat ∧
  decode false 0b00110000#8 = .reserved .noWrapper ∧
  decode true 0b01011111#8 = .reserved .nonZeroArg ∧
  decode true 0b01100000#8 = .reserved .unusedOp

/-- R88: 21 defined and 235 reserved words with the wrapper, 19 and 237 without; 160 words have an
unused `OP`, 75 a non-zero `ARG`. -/
def Obligations.DefinedAndReservedWordCounts : Prop :=
  let count (hw : Bool) (p : Decoded → Bool) : Nat :=
    ((List.range 256).filter fun n => p (decode hw (BitVec.ofNat 8 n))).length
  let defined : Decoded → Bool := fun d => match d with | .instr _ => true | .reserved _ => false
  count true defined = 21 ∧ count false defined = 19 ∧
  count true (fun d => d == .reserved .unusedOp) = 160 ∧
  count true (fun d => d == .reserved .nonZeroArg) = 75 ∧
  count true (fun d => !defined d) = 235 ∧ count false (fun d => !defined d) = 237

/-! ### The step, the ports and the fault state -/

/-- R11, R64: a step takes the oldest event presented; a word that decodes to a command runs exactly
that command, on the state with the word taken. On a running engine the decoding is R86's; that on a
faulted engine too the word is decoded first and `exec` then answers as R187 says is the model's choice
(log 15), and that the word stands at the head of `input` is log 2. -/
def Obligations.StepRunsTheDecodedCommand : Prop :=
  ∀ (s : State) (w : Byte) (rest : List HostInput) (i : Instr),
    s.input = .command w :: rest → decode s.params.hasWrapper w = .instr i →
    step s = exec i { s with input := rest }

/-- R211, R221 and the model's choice of log 4: with nothing presented the engine waits, unchanged. -/
def Obligations.EngineWaitsForTheNextCommand : Prop :=
  ∀ s : State, s.input = [] → step s = .next s

/-- R82: every command word is accepted and gets exactly one response, after all earlier ones, and the
engine takes no more than that word. -/
def Obligations.EveryCommandGetsOneResponse : Prop :=
  ∀ (s : State) (w : Byte) (rest : List HostInput), ∃ t r,
    step { s with input := .command w :: rest } = .next t ∧
    t.responses = s.responses ++ [r] ∧ t.input = rest

/-- R221, R82 over a whole input: everything presented is served, one step each, and the responses
are as many as the commands. -/
def Obligations.EveryPresentedCommandIsAnswered : Prop :=
  ∀ s : State, ∃ t, run s.input.length s = .next t ∧
    t.input = [] ∧
    t.responses.length = s.responses.length + (s.input.filter fun e => e != .reset).length

/-- R81: the response format. Bits 7:5 are FAULT and CAUSE after the command in both formats; in the
data format bit 4 is 0, and DATA is 0xF after a fault and a value of 0 to 9 otherwise. -/
def Obligations.ResponsesCarryFaultAndCause : Prop :=
  ∀ (s : State) (w : Byte) (rest : List HostInput), s.Inv → ∃ t r,
    step { s with input := .command w :: rest } = .next t ∧
    t.responses = s.responses ++ [r] ∧
    r.getLsbD 7 = t.fault ∧ r.extractLsb' 5 2 = t.cause ∧
    (w ≠ 0x50#8 → r.getLsbD 4 = false ∧
      (t.fault = true → r.extractLsb' 0 4 = 0xF#4) ∧
      (t.fault = false → (r.extractLsb' 0 4).toNat < 10))

/-- R186: fault entry is precise. A command that faults a running engine writes FAULT and CAUSE and
gives the fault byte, and nothing else changes. -/
def Obligations.FaultEntryIsPrecise : Prop :=
  ∀ (s : State) (w : Byte) (rest : List HostInput) (t : State), s.fault = false →
    step { s with input := .command w :: rest } = .next t → t.fault = true →
    ∃ k : BitVec 2, (k = 1#2 ∨ k = 2#2 ∨ k = 3#2) ∧
      t = { s with input := rest, fault := true, cause := k,
                   responses := s.responses ++
                     [if k = 1#2 then 0xAF#8 else if k = 2#2 then 0xCF#8 else 0xEF#8] }

/-- R187: in the fault state the word 0x50 returns the status register and every other word, INIT
included, gives the fault byte; the state does not change. -/
def Obligations.FaultStateAnswersOnlyStat : Prop :=
  (∀ (s : State) (w : Byte) (rest : List HostInput), s.fault = true → w ≠ 0x50#8 →
    step { s with input := .command w :: rest } =
      .next { s with input := rest,
                     responses := s.responses ++ [0b1#1 ++ s.cause ++ 0b0#1 ++ 0b1111#4] }) ∧
  (∀ (s : State) (rest : List HostInput), s.fault = true →
    step { s with input := .command 0x50#8 :: rest } =
      .next { s with input := rest,
                     responses := s.responses ++
                       [0b1#1 ++ s.cause ++ BitVec.ofBool s.ne ++ BitVec.ofBool s.params.hasWrapper
                         ++ s.pos] }) ∧
  ∀ (s : State) (i : Instr), s.fault = true → i ≠ .stat →
    exec i s = .next { s with responses := s.responses ++ [0b1#1 ++ s.cause ++ 0b0#1 ++ 0b1111#4] }

/-- R26, R27, R188 over runs: until a reset is served, a faulted engine keeps its whole state, the
first cause among it, through any number of steps. -/
def Obligations.FaultLastsUntilReset : Prop :=
  ∀ (k : Nat) (s : State), s.fault = true → HostInput.reset ∉ s.input.take k →
    ∃ t, run k s = .next t ∧ State.SameEngine s t

/-- 10_state.md R25, R27, R32: the invariant holds after reset, for every value of the parameters. -/
def Obligations.ResetStateSatisfiesTheInvariant : Prop :=
  State.reset.Inv ∧ ∀ p : Config, (State.launch p).Inv

/-- R25, R27: every step keeps the invariant: CAUSE is 0 exactly when FAULT is 0, and with no digit
absorbed ACC and POS are 0. -/
def Obligations.EveryStepKeepsTheInvariant : Prop :=
  ∀ s t : State, s.Inv → step s = .next t → t.Inv

/-- R21, R63 (carried in the state by log 1): no step changes the ROMs or the wrapper bit. -/
def Obligations.NoStepChangesTheParameters : Prop :=
  ∀ s t : State, step s = .next t → t.params = s.params

/-! ### Frames -/

/-- R124, R140: RDC, GEN, VAL and STAT leave ACC, POS, NE, the parameters (all ROM cells) and the
input as they are in every state; FAULT and CAUSE too, unless a result command of a running engine
faults; STAT never writes them. -/
def Obligations.FrameOfTheReadingCommands : Prop :=
  (∀ (i : Instr) (s t : State), i = .rdc ∨ i = .gen ∨ i = .val ∨ i = .stat → exec i s = .next t →
    t.acc = s.acc ∧ t.pos = s.pos ∧ t.ne = s.ne ∧ t.params = s.params ∧ t.input = s.input ∧
    (t.fault = false → t.cause = s.cause) ∧
    (s.fault = true → t.fault = true ∧ t.cause = s.cause)) ∧
  ∀ s t : State, exec .stat s = .next t → t.fault = s.fault ∧ t.cause = s.cause

/-- R100, R101: INIT writes ACC, POS, NE and nothing else; ABS writes ACC, POS, NE when its operand is
a digit and FAULT, CAUSE when it is not; neither touches the parameters or the input; on a faulted
engine neither writes any of the five. -/
def Obligations.FrameOfTheAccumulateCommands : Prop :=
  (∀ s t : State, exec .init s = .next t →
    t.fault = s.fault ∧ t.cause = s.cause ∧ t.params = s.params ∧ t.input = s.input) ∧
  (∀ (v : Nibble) (s t : State), exec (.abs v) s = .next t →
    t.params = s.params ∧ t.input = s.input ∧
    (v.toNat < 10 → t.fault = s.fault ∧ t.cause = s.cause) ∧
    (10 ≤ v.toNat → t.acc = s.acc ∧ t.pos = s.pos ∧ t.ne = s.ne)) ∧
  ∀ (i : Instr) (s t : State), s.fault = true → exec i s = .next t → State.SameEngine s t

/-- R22, R23, R24, R25 as one rule over all 256 words: only INIT and ABS words write ACC, POS or NE,
and POS moves only to 0 by INIT and by one, modulo 8, by a successful ABS. -/
def Obligations.OnlyInitAndAbsWriteTheDatapath : Prop :=
  ∀ (s : State) (w : Byte) (rest : List HostInput), ∃ t,
    step { s with input := .command w :: rest } = .next t ∧
    (w ≠ 0x00#8 → w.extractLsb' 4 4 ≠ 1#4 → t.acc = s.acc ∧ t.pos = s.pos ∧ t.ne = s.ne) ∧
    (w.extractLsb' 4 4 = 1#4 → t.fault = false → t.pos = s.pos + 1#3 ∧ t.ne = true) ∧
    (w = 0x00#8 → t.fault = false → t.acc = 0 ∧ t.pos = 0#3 ∧ t.ne = false) ∧
    (t.fault = true → t.acc = s.acc ∧ t.pos = s.pos ∧ t.ne = s.ne)

/-! ### Sequences -/

/-- R104: after INIT and any number of ABS commands with digits, presented to a running engine ahead
of anything else, the state is the fold's; each is acknowledged. -/
def Obligations.EngineComputesTheFold : Prop :=
  ∀ (s : State) (q : DigitSeq) (later : List HostInput), s.fault = false →
    run (q.toList.length + 1)
        { s with input := commands (.init :: seqStream q.operands) ++ later } =
      .next { s with
        acc := fold s.params.tables q
        pos := BitVec.ofNat 3 (q.toList.length % 8)
        ne := true
        input := later
        responses := s.responses ++ List.replicate (q.toList.length + 1) 0x00#8 }

/-- R216, R217 as R101 gives them: digits sent without INIT are folded onto the old ACC at the old
POS. -/
def Obligations.WithoutInitTheOldSequenceGoesOn : Prop :=
  ∀ (s : State) (q : DigitSeq) (later : List HostInput), s.fault = false →
    run q.toList.length
        { s with input := commands (seqStream q.operands) ++ later } =
      .next { s with
        acc := foldFrom s.params.tables s.acc s.pos q.toList
        pos := s.pos + BitVec.ofNat 3 q.toList.length
        ne := true
        input := later
        responses := s.responses ++ List.replicate q.toList.length 0x00#8 }

/-- R152: the response to the RDC of a FOLD stream is the fold. -/
def Obligations.FoldStreamAnswersTheFold : Prop :=
  ∀ (s : State) (q : DigitSeq) (later : List HostInput), s.fault = false → ∃ t,
    run (q.toList.length + 2)
        { s with input := commands (foldStream q.operands) ++ later } = .next t ∧
    t.responses = s.responses ++ List.replicate (q.toList.length + 1) 0x00#8
      ++ [0b0000#4 ++ BitVec.ofNat 4 (fold s.params.tables q).val] ∧
    t.fault = false ∧ t.input = later

/-- R153: the response to the GEN of a COMPUTE stream is the check digit, the empty number included. -/
def Obligations.ComputeStreamAnswersTheCheckDigit : Prop :=
  ∀ (s : State) (b : List Digit) (later : List HostInput),
    s.fault = false → s.params.hasWrapper = true → ∃ t,
    run (b.length + 3)
        { s with input := commands (computeStream (b.map digitBits)) ++ later } = .next t ∧
    t.responses = s.responses ++ List.replicate (b.length + 2) 0x00#8
      ++ [0b0000#4 ++ BitVec.ofNat 4 (computeCheckDigit s.params.tables b).val] ∧
    t.fault = false ∧ t.input = later

/-- R154: the response to the VAL of a VALIDATE stream is the verdict. -/
def Obligations.ValidateStreamAnswersTheVerdict : Prop :=
  ∀ (s : State) (q : DigitSeq) (later : List HostInput),
    s.fault = false → s.params.hasWrapper = true → ∃ t,
    run (q.toList.length + 2)
        { s with input := commands (validateStream q.operands) ++ later } = .next t ∧
    t.responses = s.responses ++ List.replicate (q.toList.length + 1) 0x00#8
      ++ [if validate s.params.tables q = .valid then 0x01#8 else 0x00#8] ∧
    t.fault = false ∧ t.input = later

/-- R156: reading the checksum in the middle of a sequence gives the fold of the prefix, and the rest
of the sequence goes on to the fold of the whole. -/
def Obligations.MidStreamReadGivesThePrefixFold : Prop :=
  ∀ (s : State) (q : DigitSeq) (more : List Digit) (later : List HostInput), s.fault = false → ∃ t,
    run (q.toList.length + more.length + 3)
        { s with input :=
            commands (foldStream q.operands ++ seqStream (more.map digitBits) ++ [.rdc]) ++ later }
      = .next t ∧
    t.responses = s.responses ++ List.replicate (q.toList.length + 1) 0x00#8
      ++ [0b0000#4 ++ BitVec.ofNat 4 (fold s.params.tables q).val]
      ++ List.replicate more.length 0x00#8
      ++ [0b0000#4 ++ BitVec.ofNat 4
            (fold s.params.tables { first := q.first, rest := q.rest ++ more }).val] ∧
    t.input = later

/-- R151, its closed form: with the group laws of R58 the fold is the product of the permuted digits. -/
def Obligations.FoldIsTheProductOfPermutedDigits : Prop :=
  ∀ (t : Tables) (q : DigitSeq), t.GroupLaws → fold t q = permutedProduct t 0#3 q.toList

/-- R158: generate, then validate, always yields Valid. -/
def Obligations.GeneratedCheckDigitValidates : Prop :=
  ∀ (t : Tables) (b : List Digit), t.GroupLaws →
    validate t { first := computeCheckDigit t b, rest := b } = .valid

/-- R158 on the engine: a COMPUTE stream, then a VALIDATE stream that puts the digit GEN answered at
position 0, ends with the response Valid. -/
def Obligations.EngineValidatesWhatItGenerates : Prop :=
  ∀ (s : State) (b : List Digit),
    s.params.tables.GroupLaws → s.params.hasWrapper = true → s.fault = false →
    ∃ (g : Digit) (t u : State),
      run (b.length + 3)
          { s with input := commands (computeStream (b.map digitBits)) } = .next t ∧
      t.responses.getLast? = some (0b0000#4 ++ digitBits g) ∧
      run (b.length + 3)
          { t with input := commands (validateStream ((g :: b).map digitBits)) } = .next u ∧
      u.responses.getLast? = some 0x01#8

/-- R159: exactly one check digit makes a number Valid. -/
def Obligations.CheckDigitIsUnique : Prop :=
  ∀ (t : Tables) (b : List Digit) (g : Digit), t.GroupLaws →
    (validate t { first := g, rest := b } = .valid ↔ g = computeCheckDigit t b)

/-- R160: changing exactly one digit of a valid sequence yields Invalid. -/
def Obligations.SingleDigitErrorIsDetected : Prop :=
  ∀ (t : Tables) (q r : DigitSeq) (before after : List Digit) (x y : Digit),
    t.WellFormed → t.GroupLaws →
    q.toList = before ++ x :: after → r.toList = before ++ y :: after → x ≠ y →
    validate t q = .valid → validate t r = .invalid

/-- R161: swapping two adjacent, distinct digits of a valid sequence yields Invalid. -/
def Obligations.AdjacentTranspositionIsDetected : Prop :=
  ∀ (t : Tables) (q r : DigitSeq) (before after : List Digit) (x y : Digit),
    t.WellFormed → t.GroupLaws → t.AntiSymmetric →
    q.toList = before ++ x :: y :: after → r.toList = before ++ y :: x :: after → x ≠ y →
    validate t q = .valid → validate t r = .invalid

/-- R162, R164 (standard tables, log 6): the first two written characters may be swapped undetected,
and the fold depends on the order of its digits. -/
def Obligations.OrderOfDigitsMattersAndHasItsLimit : Prop :=
  (order ⟨7, [2, 0, 6]⟩ = ⟨7, [6, 0, 2]⟩ ∧ validate standardTables (order ⟨7, [2, 0, 6]⟩) = .valid) ∧
  (order ⟨2, [7, 0, 6]⟩ = ⟨2, [6, 0, 7]⟩ ∧ validate standardTables (order ⟨2, [7, 0, 6]⟩) = .valid) ∧
  fold standardTables ⟨0, [1, 5]⟩ = 1 ∧ fold standardTables ⟨0, [5, 1]⟩ = 0

/-- R150: `order` keeps the first digit and the length, and character `n - i` of the string reaches
position `i`. -/
def Obligations.OrderReversesAllButTheFirst : Prop :=
  ∀ s : DigitSeq, (order s).first = s.first ∧ (order s).toList.length = s.toList.length ∧
    ∀ i, 1 ≤ i → i < s.toList.length →
      (order s).toList[i]? = s.toList[s.toList.length - i]?

/-- R163 (standard tables, log 6): sequences of one digit. -/
def Obligations.SingleDigitSequences : Prop :=
  (∀ v : Digit, fold standardTables ⟨v, []⟩ = v) ∧
  computeCheckDigit standardTables [] = 0 ∧
  ∀ v : Digit, validate standardTables ⟨v, []⟩ = .valid ↔ v = 0

/-! ### The tables -/

/-- R55 to R58 for the default tables (log 6): the source's invariants, the group laws, anti-symmetry,
and that `D` is not commutative. -/
def Obligations.StandardTablesSatisfyTheInvariants : Prop :=
  standardTables.WellFormed ∧ standardTables.GroupLaws ∧ standardTables.AntiSymmetric ∧
  readD standardTables 1 5 = 6 ∧ readD standardTables 5 1 = 9

/-- R52, R53, R54 (log 6): the closed form of `D`, that any right inverse table for it is `INV`, and
that each row of `NUM` is the row before composed with row 1, around the wrap. -/
def Obligations.StandardTablesHaveTheirClosedForms : Prop :=
  (∀ a b : Fin 5,
    (readD standardTables ⟨a, by omega⟩ ⟨b, by omega⟩).val = (a.val + b.val) % 5 ∧
    (readD standardTables ⟨a, by omega⟩ ⟨5 + b, by omega⟩).val = 5 + (a.val + b.val) % 5 ∧
    (readD standardTables ⟨5 + a, by omega⟩ ⟨b, by omega⟩).val = 5 + (a.val + 5 - b.val) % 5 ∧
    (readD standardTables ⟨5 + a, by omega⟩ ⟨5 + b, by omega⟩).val = (a.val + 5 - b.val) % 5) ∧
  (∀ x y : Digit, readD standardTables x y = 0 → y = readInv standardTables x) ∧
  ∀ (p : Fin 8) (v : Digit),
    readNum standardTables (BitVec.ofFin p + 1#3) v =
      readNum standardTables (BitVec.ofFin p) (readNum standardTables 1#3 v) ∧
    readNum standardTables (BitVec.ofFin p + 1#3) v =
      readNum standardTables 1#3 (readNum standardTables (BitVec.ofFin p) v)

/-- R123 (standard tables, log 6): the three result commands agree on every running, non-empty engine
with the wrapper. -/
def Obligations.ResultCommandsAgree : Prop :=
  ∀ s : State, s.params = standardConfig → s.fault = false → s.ne = true →
    ∃ (c g : Digit) (r v : Byte),
      exec .rdc s = .next { s with responses := s.responses ++ [r] } ∧ r = 0b0000#4 ++ digitBits c ∧
      exec .gen s = .next { s with responses := s.responses ++ [0b0000#4 ++ digitBits g] } ∧
      exec .val s = .next { s with responses := s.responses ++ [v] } ∧
      g = readInv standardTables c ∧ (v = 0x01#8 ↔ r = 0x00#8) ∧ (v = 0x00#8 ↔ r ≠ 0x00#8) ∧
      (g = 0 ↔ c = 0)

/-! ### Whole-machine rules -/

/-- R165, R218, R189: a running engine never faults under a host that keeps the contract; and with no
reset among the events it is faulted at the end exactly when the host broke the contract. -/
def Obligations.EngineFaultsExactlyWhenTheHostBreaksTheContract : Prop :=
  (∀ s : State, s.fault = false → hostKeeps s.params.hasWrapper s.ne s.input = true → ∃ t,
    run s.input.length s = .next t ∧ t.fault = false) ∧
  ∀ s : State, s.fault = false → HostInput.reset ∉ s.input → ∃ t,
    run s.input.length s = .next t ∧
    (t.fault = true ↔ hostKeeps s.params.hasWrapper s.ne s.input = false)

/-- R124: under a host that keeps the contract, dropping every reading command (RDC, GEN, VAL, STAT)
from the events changes nothing of the engine at the end. -/
def Obligations.ReadingCommandsNeverMatterLater : Prop :=
  ∀ s : State, s.fault = false → hostKeeps s.params.hasWrapper s.ne s.input = true →
    ∃ t u, run s.input.length s = .next t ∧
      (let kept := s.input.filter fun e =>
          match e with | .command w => !isRead w | .reset => true
       run kept.length { s with input := kept } = .next u) ∧
      State.SameEngine t u

/-- R157, R11: the new responses and the engine's state after a run over some events depend on the
engine's state and those events alone: not on earlier responses, not on what is presented later. -/
def Obligations.ResponsesDependOnStateAndCommandsOnly : Prop :=
  ∀ (s s' : State) (events later later' : List HostInput), State.SameEngine s s' →
    ∃ (t t' : State) (new : List Byte),
      run events.length { s with input := events ++ later } = .next t ∧
      run events.length { s' with input := events ++ later' } = .next t' ∧
      t.responses = s.responses ++ new ∧ t'.responses = s'.responses ++ new ∧
      State.SameEngine t t'

/-- R7, R53, R89: without the wrapper the INV ROM is absent: engines that differ in its contents alone
answer every run with the same responses and the same registers. -/
def Obligations.InverseRomIsAbsentWithoutTheWrapper : Prop :=
  ∀ (s : State) (inv' : Vector Digit 10) (k : Nat), s.params.hasWrapper = false →
    ∃ t, run k s = .next t ∧
      run k
          { s with params := { s.params with tables := { s.params.tables with inv := inv' } } } =
        .next { t with params := { t.params with tables := { t.params.tables with inv := inv' } } }

/-- R195: a step of one instance leaves every other instance as it was, its fault bit among the rest. -/
def Obligations.InstancesDoNotTouchEachOther : Prop :=
  ∀ (system : List State) (k : Nat), ∃ system',
    stepInstance k system = .next system' ∧ system'.length = system.length ∧
    (∀ j, j ≠ k → system'[j]? = system[j]?) ∧
    ∀ s, system[k]? = some s → ∃ t, step s = .next t ∧ system'[k]? = some t

/-! ### The notation -/

/-- R90: a command written in the notation, alone or with a comment behind it, assembles to its word. -/
def Obligations.AssemblingACommandGivesItsWord : Prop :=
  ∀ (i : Instr) (comment : List Char),
    assembleLine (commandText i) = some [encode i] ∧
    assembleLine (commandText i ++ ' ' :: ';' :: comment) = some [encode i]

/-- R220, R91: an invocation over `n` digits is `n + 2` commands, the placeholder counting as a digit. -/
def Obligations.InvocationsHaveTwoCommandsMoreThanDigits : Prop :=
  ∀ (q : DigitSeq) (b : List Nibble),
    (commands (foldStream q.operands)).length = q.toList.length + 2 ∧
    (commands (validateStream q.operands)).length = q.toList.length + 2 ∧
    (commands (computeStream b)).length = (b.length + 1) + 2
end

