-- ==== Sys2Proof/Laws/Assembler.lean ====
section
/-!
SUPPORT. Small lemmas of the notation (spec/30_encoding.md rule R90): what a comment is worth.
-/

namespace Sys2Proof.Machine

/-- A line without `;` has no comment. -/
theorem stripComment_of_clean {line : List Char} (h : ∀ c ∈ line, c ≠ ';') :
    stripComment line = line := by
  induction line with
  | nil => rfl
  | cons c cs ih =>
    simp [stripComment, h c (by simp), ih fun d hd => h d (List.mem_cons_of_mem _ hd)]

/-- A comment ends the line (R90). -/
theorem stripComment_append {line : List Char} (h : ∀ c ∈ line, c ≠ ';') (comment : List Char) :
    stripComment (line ++ ';' :: comment) = line := by
  induction line with
  | nil => simp [stripComment]
  | cons c cs ih =>
    simp [stripComment, h c (by simp), ih fun d hd => h d (List.mem_cons_of_mem _ hd)]

end Sys2Proof.Machine
end

