-- ==== Sys2Proof/Laws/Decode.lean ====
section
/-!
SUPPORT. Small lemmas of the decoder and the encoder: the fields of an encoded operand, and what the
decoder answers on each operation code.
-/

namespace Sys2Proof

/-- The word of ABS has `OP = 0x1` and its operand as `ARG` (R80, R83). -/
@[simp] theorem opField_abs (v : Nibble) : opField (0x1#4 ++ v) = 0x1#4 := by
  revert v; decide

@[simp] theorem argField_abs (v : Nibble) : argField (0x1#4 ++ v) = v := by
  revert v; decide

/-- A word is its two fields (R80). -/
theorem fields_append (w : Byte) : opField w ++ argField w = w := by
  revert w; decide

/-- With `OP = 0x1` every `ARG` decodes, as ABS (R86(1)). -/
theorem decode_of_opField_one {w : Byte} (hw : Bool) (h : opField w = 0x1#4) :
    decode hw w = .instr (.abs (argField w)) := by
  simp [decode, h]

/-- A wrapper command decodes exactly with the wrapper (R86(3)). -/
theorem wrapped_eq_instr {hw : Bool} {i j : Instr} :
    wrapped hw i = .instr j ↔ hw = true ∧ i = j := by
  cases hw <;> simp [wrapped]

/-- The wrapper bit matters to no word but the two of the wrapper (R86). -/
theorem decode_wrapper_irrelevant {w : Byte} (h : w ≠ 0x30#8) (h' : w ≠ 0x40#8) (hw : Bool) :
    decode hw w = decode true w := by
  simp [decode, h, h']

end Sys2Proof
end

