-- ==== Sys2Proof/Laws/State.lean ====
section
/-!
SUPPORT. One lemma per field per update of the state, so that no later proof unfolds an update.
-/

namespace Sys2Proof.Machine

variable (s : State)

/-! Giving a response writes `responses` alone. -/

@[simp] theorem respond_params (r : Byte) : (respond r s).params = s.params := rfl
@[simp] theorem respond_acc (r : Byte) : (respond r s).acc = s.acc := rfl
@[simp] theorem respond_pos (r : Byte) : (respond r s).pos = s.pos := rfl
@[simp] theorem respond_ne (r : Byte) : (respond r s).ne = s.ne := rfl
@[simp] theorem respond_fault (r : Byte) : (respond r s).fault = s.fault := rfl
@[simp] theorem respond_cause (r : Byte) : (respond r s).cause = s.cause := rfl
@[simp] theorem respond_input (r : Byte) : (respond r s).input = s.input := rfl
@[simp] theorem respond_responses (r : Byte) : (respond r s).responses = s.responses ++ [r] := rfl

/-! Fault entry writes FAULT, CAUSE and the response (R186). -/

@[simp] theorem raise_params (k : FaultCause) : (raise k s).params = s.params := rfl
@[simp] theorem raise_acc (k : FaultCause) : (raise k s).acc = s.acc := rfl
@[simp] theorem raise_pos (k : FaultCause) : (raise k s).pos = s.pos := rfl
@[simp] theorem raise_ne (k : FaultCause) : (raise k s).ne = s.ne := rfl
@[simp] theorem raise_fault (k : FaultCause) : (raise k s).fault = true := rfl
@[simp] theorem raise_cause (k : FaultCause) : (raise k s).cause = k.code := rfl
@[simp] theorem raise_input (k : FaultCause) : (raise k s).input = s.input := rfl
@[simp] theorem raise_responses (k : FaultCause) :
    (raise k s).responses = s.responses ++ [faultByte k.code] := rfl

/-! A faulted answer writes `responses` alone (R187). -/

@[simp] theorem answerFaulted_params : (answerFaulted s).params = s.params := rfl
@[simp] theorem answerFaulted_acc : (answerFaulted s).acc = s.acc := rfl
@[simp] theorem answerFaulted_pos : (answerFaulted s).pos = s.pos := rfl
@[simp] theorem answerFaulted_ne : (answerFaulted s).ne = s.ne := rfl
@[simp] theorem answerFaulted_fault : (answerFaulted s).fault = s.fault := rfl
@[simp] theorem answerFaulted_cause : (answerFaulted s).cause = s.cause := rfl
@[simp] theorem answerFaulted_input : (answerFaulted s).input = s.input := rfl
@[simp] theorem answerFaulted_responses :
    (answerFaulted s).responses = s.responses ++ [faultByte s.cause] := rfl

/-! The writes of INIT (R100). -/

@[simp] theorem startSequence_params : (startSequence s).params = s.params := rfl
@[simp] theorem startSequence_acc : (startSequence s).acc = 0 := rfl
@[simp] theorem startSequence_pos : (startSequence s).pos = 0#3 := rfl
@[simp] theorem startSequence_ne : (startSequence s).ne = false := rfl
@[simp] theorem startSequence_fault : (startSequence s).fault = s.fault := rfl
@[simp] theorem startSequence_cause : (startSequence s).cause = s.cause := rfl
@[simp] theorem startSequence_input : (startSequence s).input = s.input := rfl
@[simp] theorem startSequence_responses : (startSequence s).responses = s.responses := rfl

/-! The writes of ABS (R101). -/

@[simp] theorem absorb_params (v : Digit) : (absorb v s).params = s.params := rfl
@[simp] theorem absorb_acc (v : Digit) :
    (absorb v s).acc = readD s.params.tables s.acc (readNum s.params.tables s.pos v) := rfl
@[simp] theorem absorb_pos (v : Digit) : (absorb v s).pos = s.pos + 1#3 := rfl
@[simp] theorem absorb_ne (v : Digit) : (absorb v s).ne = true := rfl
@[simp] theorem absorb_fault (v : Digit) : (absorb v s).fault = s.fault := rfl
@[simp] theorem absorb_cause (v : Digit) : (absorb v s).cause = s.cause := rfl
@[simp] theorem absorb_input (v : Digit) : (absorb v s).input = s.input := rfl
@[simp] theorem absorb_responses (v : Digit) : (absorb v s).responses = s.responses := rfl

/-! The writes of reset (R210). -/

@[simp] theorem applyReset_params : (applyReset s).params = s.params := rfl
@[simp] theorem applyReset_acc : (applyReset s).acc = 0 := rfl
@[simp] theorem applyReset_pos : (applyReset s).pos = 0#3 := rfl
@[simp] theorem applyReset_ne : (applyReset s).ne = false := rfl
@[simp] theorem applyReset_fault : (applyReset s).fault = false := rfl
@[simp] theorem applyReset_cause : (applyReset s).cause = 0#2 := rfl
@[simp] theorem applyReset_input : (applyReset s).input = s.input := rfl
@[simp] theorem applyReset_responses : (applyReset s).responses = s.responses := rfl

/-! Taking what the host presented writes `input` alone. -/

@[simp] theorem takeInput_params (rest : List HostInput) :
    (takeInput rest s).params = s.params := rfl
@[simp] theorem takeInput_acc (rest : List HostInput) : (takeInput rest s).acc = s.acc := rfl
@[simp] theorem takeInput_pos (rest : List HostInput) : (takeInput rest s).pos = s.pos := rfl
@[simp] theorem takeInput_ne (rest : List HostInput) : (takeInput rest s).ne = s.ne := rfl
@[simp] theorem takeInput_fault (rest : List HostInput) : (takeInput rest s).fault = s.fault := rfl
@[simp] theorem takeInput_cause (rest : List HostInput) : (takeInput rest s).cause = s.cause := rfl
@[simp] theorem takeInput_input (rest : List HostInput) : (takeInput rest s).input = rest := rfl
@[simp] theorem takeInput_responses (rest : List HostInput) :
    (takeInput rest s).responses = s.responses := rfl

/-! Presenting writes `input` alone. -/

@[simp] theorem present_params (es : List HostInput) : (present es s).params = s.params := rfl
@[simp] theorem present_acc (es : List HostInput) : (present es s).acc = s.acc := rfl
@[simp] theorem present_pos (es : List HostInput) : (present es s).pos = s.pos := rfl
@[simp] theorem present_ne (es : List HostInput) : (present es s).ne = s.ne := rfl
@[simp] theorem present_fault (es : List HostInput) : (present es s).fault = s.fault := rfl
@[simp] theorem present_cause (es : List HostInput) : (present es s).cause = s.cause := rfl
@[simp] theorem present_input (es : List HostInput) : (present es s).input = s.input ++ es := rfl
@[simp] theorem present_responses (es : List HostInput) :
    (present es s).responses = s.responses := rfl

/-! The launch state of an engine (R32, R33). -/

@[simp] theorem launch_params (p : Config) : (State.launch p).params = p := rfl
@[simp] theorem launch_acc (p : Config) : (State.launch p).acc = 0 := rfl
@[simp] theorem launch_pos (p : Config) : (State.launch p).pos = 0#3 := rfl
@[simp] theorem launch_ne (p : Config) : (State.launch p).ne = false := rfl
@[simp] theorem launch_fault (p : Config) : (State.launch p).fault = false := rfl
@[simp] theorem launch_cause (p : Config) : (State.launch p).cause = 0#2 := rfl
@[simp] theorem launch_input (p : Config) : (State.launch p).input = [] := rfl
@[simp] theorem launch_responses (p : Config) : (State.launch p).responses = [] := rfl

end Sys2Proof.Machine
end

