-- ==== Sys2Proof/Laws/Ops.lean ====
section
/-!
SUPPORT. One lemma per shared operation that says everything it can do: the guards, the operand, the
response bytes; and that every group of register writes keeps the invariant's clauses.
-/

namespace Sys2Proof.Machine

variable {s t e : State}

/-! ### Guards -/

/-- Everything `whenRunning` can do (R187). -/
theorem whenRunning_cases (h : whenRunning s e = .next t) :
    (s.fault = true ∧ t = answerFaulted s) ∨ (s.fault = false ∧ t = e) := by
  unfold whenRunning at h
  cases hf : s.fault <;> simp_all

theorem whenRunning_running (h : s.fault = false) : whenRunning s e = .next e := by
  simp [whenRunning, h]

theorem whenRunning_faulted (h : s.fault = true) : whenRunning s e = .next (answerFaulted s) := by
  simp [whenRunning, h]

/-- `whenRunning` always answers a next state (R82). -/
theorem whenRunning_next : ∃ u, whenRunning s e = .next u := ⟨_, rfl⟩

/-- Everything `whenNonEmpty` can do (R183). -/
theorem whenNonEmpty_cases :
    (s.ne = true ∧ whenNonEmpty s e = e) ∨
      (s.ne = false ∧ whenNonEmpty s e = raise .emptySequence s) := by
  unfold whenNonEmpty
  cases s.ne <;> simp

theorem whenNonEmpty_nonEmpty (h : s.ne = true) : whenNonEmpty s e = e := by
  simp [whenNonEmpty, h]

theorem whenNonEmpty_empty (h : s.ne = false) : whenNonEmpty s e = raise .emptySequence s := by
  simp [whenNonEmpty, h]

/-- Everything `whenWrapper` can do (R7, R184). -/
theorem whenWrapper_cases :
    (s.params.hasWrapper = true ∧ whenWrapper s e = e) ∨
      (s.params.hasWrapper = false ∧ whenWrapper s e = raise .illegalCommand s) := by
  unfold whenWrapper
  cases s.params.hasWrapper <;> simp

theorem whenWrapper_present (h : s.params.hasWrapper = true) : whenWrapper s e = e := by
  simp [whenWrapper, h]

theorem whenWrapper_absent (h : s.params.hasWrapper = false) :
    whenWrapper s e = raise .illegalCommand s := by
  simp [whenWrapper, h]

/-- Everything a reserved word can do (R87, R187). -/
theorem execReserved_cases (h : execReserved s = .next t) :
    (s.fault = true ∧ t = answerFaulted s) ∨ (s.fault = false ∧ t = raise .illegalCommand s) :=
  whenRunning_cases h

/-! ### The operand -/

theorem digitBits_toNat (d : Digit) : (digitBits d).toNat = d.val := by
  have := d.isLt
  simp only [digitBits, BitVec.toNat_ofNat]
  omega

@[simp] theorem digitOperand_digitBits (d : Digit) : digitOperand (digitBits d) = some d := by
  simp [digitOperand, digitBits_toNat]

theorem digitOperand_of_lt {v : Nibble} (h : v.toNat < 10) :
    digitOperand v = some ⟨v.toNat, h⟩ := by
  simp [digitOperand, h]

theorem digitOperand_of_ge {v : Nibble} (h : 10 ≤ v.toNat) : digitOperand v = none := by
  simp [digitOperand, Nat.not_lt.mpr h]

/-- The operand is a digit exactly when it is the digit's own value (R83, R84). -/
theorem digitOperand_eq_some {v : Nibble} {d : Digit} :
    digitOperand v = some d ↔ v = digitBits d := by
  constructor
  · intro h
    by_cases hv : v.toNat < 10
    · rw [digitOperand_of_lt hv, Option.some.injEq] at h
      apply BitVec.eq_of_toNat_eq
      rw [digitBits_toNat, ← h]
    · rw [digitOperand_of_ge (Nat.le_of_not_lt hv)] at h
      cases h
  · rintro rfl
    exact digitOperand_digitBits d

/-! ### The bytes -/

@[simp] theorem dataByte_ackBits : dataByte ackBits = 0x00#8 := rfl
@[simp] theorem faultByte_digitRange : faultByte FaultCause.digitRange.code = 0xAF#8 := rfl
@[simp] theorem faultByte_emptySequence : faultByte FaultCause.emptySequence.code = 0xCF#8 := rfl
@[simp] theorem faultByte_illegalCommand : faultByte FaultCause.illegalCommand.code = 0xEF#8 := rfl

/-- No fault has the code 0 (R181). -/
theorem code_ne_zero (k : FaultCause) : k.code ≠ 0#2 := by cases k <;> decide

/-- The two codes are one code (R181). -/
theorem code_injective {k l : FaultCause} (h : k.code = l.code) : k = l := by
  cases k <;> cases l <;> first | rfl | exact absurd h (by decide)

/-! ### Two states over the same response -/

theorem respond_injective {r r' : Byte} (h : respond r s = respond r' s) : r = r' := by
  have h' := congrArg State.responses h
  simpa using h'

end Sys2Proof.Machine
end

