-- ==== Sys2Proof/Laws/PerInstr.lean ====
section
/-!
SUPPORT. The per-instruction family `RowMatch`: the word of each command selects the command's own row
of the opcode map (spec/30_encoding.md rule R85), whatever its operand.
-/

namespace Sys2Proof.Laws.RowMatch

/-- The command's word selects its row. -/
def Statement (i : Instr) : Prop := (opcodeRow i).selects (encode i) = true

theorem init : Statement .init := rfl
theorem abs (v : Nibble) : Statement (.abs v) := by
  revert v
  unfold Statement
  decide
theorem rdc : Statement .rdc := rfl
theorem gen : Statement .gen := rfl
theorem val : Statement .val := rfl
theorem stat : Statement .stat := rfl

end Sys2Proof.Laws.RowMatch
end

