-- ==== Sys2Proof/Laws/Safety.lean ====
section
/-!
SUPPORT. Two states with the same engine (R20): the small lemmas that make `SameEngine` usable, and
which operations respect it.
-/

namespace Sys2Proof.Machine

variable {s t u : State}

theorem sameEngine_refl (s : State) : State.SameEngine s s := ⟨rfl, rfl, rfl, rfl, rfl, rfl⟩

theorem sameEngine_symm (h : State.SameEngine s t) : State.SameEngine t s :=
  ⟨h.1.symm, h.2.1.symm, h.2.2.1.symm, h.2.2.2.1.symm, h.2.2.2.2.1.symm, h.2.2.2.2.2.symm⟩

theorem sameEngine_trans (h : State.SameEngine s t) (h' : State.SameEngine t u) :
    State.SameEngine s u :=
  ⟨h.1.trans h'.1, h.2.1.trans h'.2.1, h.2.2.1.trans h'.2.2.1, h.2.2.2.1.trans h'.2.2.2.1,
    h.2.2.2.2.1.trans h'.2.2.2.2.1, h.2.2.2.2.2.trans h'.2.2.2.2.2⟩

/-- The same engine is the same state but for the ports. -/
theorem eq_of_sameEngine (h : State.SameEngine s t) :
    t = { s with input := t.input, responses := t.responses } := by
  obtain ⟨h1, h2, h3, h4, h5, h6⟩ := h
  cases t
  simp_all

/-- The ports are no part of the engine. -/
theorem sameEngine_ports (s : State) (es : List HostInput) (rs : List Byte) :
    State.SameEngine s { s with input := es, responses := rs } := ⟨rfl, rfl, rfl, rfl, rfl, rfl⟩

theorem sameEngine_respond (r : Byte) (s : State) : State.SameEngine s (respond r s) :=
  ⟨rfl, rfl, rfl, rfl, rfl, rfl⟩

theorem sameEngine_answerFaulted (s : State) : State.SameEngine s (answerFaulted s) :=
  sameEngine_respond _ s

theorem sameEngine_takeInput (rest : List HostInput) (s : State) :
    State.SameEngine s (takeInput rest s) := ⟨rfl, rfl, rfl, rfl, rfl, rfl⟩

/-- Reset depends on the engine's parameters alone (R210). -/
theorem sameEngine_applyReset (h : State.SameEngine s t) :
    State.SameEngine (applyReset s) (applyReset t) := ⟨h.1, rfl, rfl, rfl, rfl, rfl⟩

end Sys2Proof.Machine
end

