-- ==== Sys2Proof/Laws/Sequence.lean ====
section
/-!
SUPPORT. Small lemmas of the sequence-level operations (spec/45_sequence_operations.md).
-/

namespace Sys2Proof.Machine

variable (t : Tables)

@[simp] theorem foldFrom_nil (c : Digit) (p : BitVec 3) : foldFrom t c p [] = c := rfl

@[simp] theorem foldFrom_cons (c : Digit) (p : BitVec 3) (v : Digit) (vs : List Digit) :
    foldFrom t c p (v :: vs) = foldFrom t (readD t c (readNum t p v)) (p + 1#3) vs := rfl

/-- The loop over a sequence in two parts (R156): the second part starts where the first ended. -/
theorem foldFrom_append (c : Digit) (p : BitVec 3) (us vs : List Digit) :
    foldFrom t c p (us ++ vs) =
      foldFrom t (foldFrom t c p us) (p + BitVec.ofNat 3 us.length) vs := by
  induction us generalizing c p with
  | nil => simp
  | cons u us ih =>
    have e : p + 1#3 + BitVec.ofNat 3 us.length = p + BitVec.ofNat 3 (us.length + 1) := by
      rw [BitVec.ofNat_add]
      ac_rfl
    simp only [List.cons_append, foldFrom_cons, ih, List.length_cons, e]

@[simp] theorem permutedProduct_nil (p : BitVec 3) : permutedProduct t p [] = 0 := rfl

@[simp] theorem permutedProduct_cons (p : BitVec 3) (v : Digit) (vs : List Digit) :
    permutedProduct t p (v :: vs) = readD t (readNum t p v) (permutedProduct t (p + 1#3) vs) := rfl

/-- In a group a left factor cancels. -/
theorem readD_left_cancel {t : Tables} (g : t.GroupLaws) {a x y : Digit}
    (h : readD t a x = readD t a y) : x = y := by
  obtain ⟨assoc, ident, left, -⟩ := g
  have h' := congrArg (readD t (readInv t a)) h
  simpa [← assoc, left, ident] using h'

/-- In a group a left inverse is a right inverse (90_conflicts.md C3). -/
theorem readD_inv_right {t : Tables} (g : t.GroupLaws) (a : Digit) :
    readD t a (readInv t a) = 0 := by
  apply readD_left_cancel g (a := readInv t a)
  obtain ⟨assoc, ident, left, -⟩ := g
  rw [← assoc, left, (ident _).1, (ident _).2]

/-- In a group a right factor cancels. -/
theorem readD_right_cancel {t : Tables} (g : t.GroupLaws) {a x y : Digit}
    (h : readD t x a = readD t y a) : x = y := by
  have right : readD t a (readInv t a) = 0 := readD_inv_right g a
  obtain ⟨assoc, ident, -, -⟩ := g
  have h' := congrArg (fun z => readD t z (readInv t a)) h
  simpa [assoc, right, ident] using h'

/-- `order` keeps the length (R150). -/
@[simp] theorem order_toList_length (s : DigitSeq) : (order s).toList.length = s.toList.length := by
  simp [order, DigitSeq.toList]

end Sys2Proof.Machine
end

