-- ==== Sys2Proof/Laws/Step.lean ====
section
/-!
SUPPORT. What a command, a word and a step can do, said once: the inversion lemmas later proofs cite
instead of unfolding the machine.
-/

namespace Sys2Proof.Machine

/-- When a command faults a running engine (R181): the cause and its condition. -/
inductive Raises (s : State) : Instr → FaultCause → Prop where
  | digitRange {v : Nibble} (h : 10 ≤ v.toNat) : Raises s (.abs v) .digitRange
  | emptyRdc (h : s.ne = false) : Raises s .rdc .emptySequence
  | emptyGen (hw : s.params.hasWrapper = true) (h : s.ne = false) : Raises s .gen .emptySequence
  | emptyVal (hw : s.params.hasWrapper = true) (h : s.ne = false) : Raises s .val .emptySequence
  | noGen (hw : s.params.hasWrapper = false) : Raises s .gen .illegalCommand
  | noVal (hw : s.params.hasWrapper = false) : Raises s .val .illegalCommand

/-- What a result command returns (R120, R121, R122). -/
def resultData (s : State) : Instr → Option Nibble
  | .rdc => some (digitBits s.acc)
  | .gen => if s.params.hasWrapper then some (digitBits (readInv s.params.tables s.acc)) else none
  | .val => if s.params.hasWrapper then some (verdictOf s.acc).bits else none
  | .init | .abs _ | .stat => none

/-- Everything a command can do. -/
theorem exec_cases {i : Instr} {s t : State} (h : exec i s = .next t) :
    (i = .stat ∧ t = respond (statusByte s) s) ∨
    (i ≠ .stat ∧ s.fault = true ∧ t = answerFaulted s) ∨
    (s.fault = false ∧ ∃ k, Raises s i k ∧ t = raise k s) ∨
    (s.fault = false ∧ i = .init ∧ t = respond 0x00#8 (startSequence s)) ∨
    (s.fault = false ∧ ∃ d, i = .abs (digitBits d) ∧ t = respond 0x00#8 (absorb d s)) ∨
    (s.fault = false ∧ s.ne = true ∧ ∃ x, resultData s i = some x ∧ t = respond (dataByte x) s) := by
  cases i with
  | stat => exact .inl ⟨rfl, by simpa [exec, execStat] using h.symm⟩
  | init =>
    rcases whenRunning_cases h with ⟨hf, rfl⟩ | ⟨hf, rfl⟩
    · exact .inr (.inl ⟨by simp, hf, rfl⟩)
    · exact .inr (.inr (.inr (.inl ⟨hf, rfl, rfl⟩)))
  | abs v =>
    rcases whenRunning_cases h with ⟨hf, rfl⟩ | ⟨hf, rfl⟩
    · exact .inr (.inl ⟨by simp, hf, rfl⟩)
    · by_cases hv : v.toNat < 10
      · have hd := digitOperand_of_lt hv
        refine .inr (.inr (.inr (.inr (.inl ⟨hf, ⟨v.toNat, hv⟩, ?_, ?_⟩))))
        · exact congrArg Instr.abs (digitOperand_eq_some.mp hd)
        · simp [hd]
      · have hv := Nat.le_of_not_lt hv
        exact .inr (.inr (.inl ⟨hf, _, .digitRange hv, by simp [digitOperand_of_ge hv]⟩))
  | rdc =>
    rcases whenRunning_cases h with ⟨hf, rfl⟩ | ⟨hf, rfl⟩
    · exact .inr (.inl ⟨by simp, hf, rfl⟩)
    · rcases whenNonEmpty_cases (s := s) (e := respond (dataByte (digitBits s.acc)) s) with
        ⟨hn, he⟩ | ⟨hn, he⟩
      · exact .inr (.inr (.inr (.inr (.inr ⟨hf, hn, _, rfl, he⟩))))
      · exact .inr (.inr (.inl ⟨hf, _, .emptyRdc hn, he⟩))
  | gen =>
    rcases whenRunning_cases h with ⟨hf, rfl⟩ | ⟨hf, rfl⟩
    · exact .inr (.inl ⟨by simp, hf, rfl⟩)
    · cases hw : s.params.hasWrapper with
      | false => exact .inr (.inr (.inl ⟨hf, _, .noGen hw, whenWrapper_absent hw⟩))
      | true =>
        rw [whenWrapper_present hw]
        cases hn : s.ne with
        | false => exact .inr (.inr (.inl ⟨hf, _, .emptyGen hw hn, whenNonEmpty_empty hn⟩))
        | true =>
          exact .inr (.inr (.inr (.inr (.inr
            ⟨hf, rfl, _, by simp [resultData, hw], whenNonEmpty_nonEmpty hn⟩))))
  | val =>
    rcases whenRunning_cases h with ⟨hf, rfl⟩ | ⟨hf, rfl⟩
    · exact .inr (.inl ⟨by simp, hf, rfl⟩)
    · cases hw : s.params.hasWrapper with
      | false => exact .inr (.inr (.inl ⟨hf, _, .noVal hw, whenWrapper_absent hw⟩))
      | true =>
        rw [whenWrapper_present hw]
        cases hn : s.ne with
        | false => exact .inr (.inr (.inl ⟨hf, _, .emptyVal hw hn, whenNonEmpty_empty hn⟩))
        | true =>
          exact .inr (.inr (.inr (.inr (.inr
            ⟨hf, rfl, _, by simp [resultData, hw], whenNonEmpty_nonEmpty hn⟩))))

/-- A result is a digit or a verdict, never 0xF (R81, R84). -/
theorem resultData_lt {s : State} {i : Instr} {x : Nibble} (h : resultData s i = some x) :
    x.toNat < 10 := by
  have digit (d : Digit) : (digitBits d).toNat < 10 := by rw [digitBits_toNat]; exact d.isLt
  have verdict (v : Verdict) : v.bits.toNat < 10 := by cases v <;> decide
  cases i <;> simp [resultData] at h
  · subst h; exact digit _
  · obtain ⟨-, rfl⟩ := h; exact digit _
  · obtain ⟨-, rfl⟩ := h; exact verdict _

/-- Everything one command word can do. -/
theorem execWord_cases {w : Byte} {s t : State} (h : execWord w s = .next t) :
    (∃ i, decode s.params.hasWrapper w = .instr i ∧ exec i s = .next t) ∨
    (∃ r, decode s.params.hasWrapper w = .reserved r ∧ execReserved s = .next t) := by
  unfold execWord at h
  split at h
  · next i hi => exact .inl ⟨i, hi, h⟩
  · next r hr => exact .inr ⟨r, hr, h⟩

/-- Everything a step can do: wait, be reset, or execute one word. -/
theorem step_cases {s t : State} (h : step s = .next t) :
    (s.input = [] ∧ t = s) ∨
    (∃ rest, s.input = .reset :: rest ∧ t = applyReset (takeInput rest s)) ∨
    (∃ w rest, s.input = .command w :: rest ∧ execWord w (takeInput rest s) = .next t) := by
  unfold step serveNext at h
  split at h
  · next hi => exact .inl ⟨hi, by simpa using h.symm⟩
  · next e rest hi =>
    cases e with
    | reset => exact .inr (.inl ⟨rest, hi, by simpa [serve] using h.symm⟩)
    | command w => exact .inr (.inr ⟨w, rest, hi, h⟩)

/-! The step on each kind of input. -/

theorem step_of_command {s : State} {w : Byte} {rest : List HostInput}
    (h : s.input = .command w :: rest) : step s = execWord w (takeInput rest s) := by
  simp [step, serveNext, h, serve]

theorem step_of_reset {s : State} {rest : List HostInput} (h : s.input = .reset :: rest) :
    step s = .next (applyReset (takeInput rest s)) := by
  simp [step, serveNext, h, serve]

/-! ### Runs -/

@[simp] theorem run_zero (s : State) : run 0 s = .next s := rfl

/-- One more step of a run. -/
theorem run_succ {k : Nat} {s t : State} (h : step s = .next t) : run (k + 1) s = run k t := by
  simp only [run, h]

/-- A run in two parts. -/
theorem run_add {a : Nat} (b : Nat) {s t : State} (h : run a s = .next t) :
    run (a + b) s = run b t := by
  induction a generalizing s with
  | zero =>
    simp only [run, Host.Outcome.next.injEq] at h
    rw [h, Nat.zero_add]
  | succ a ih =>
    rw [Nat.succ_add]
    simp only [run] at h ⊢
    cases hs : step s with
    | next u =>
      rw [hs] at h
      exact ih h
    | fault r => rw [hs] at h; cases h
    | refused r => rw [hs] at h; cases h

/-- The model's run is the host's run of the model's machine. -/
theorem host_run_eq_run (k : Nat) (s : State) : Host.Core.run Sys2Proof.core k s = run k s := by
  induction k generalizing s with
  | zero => rfl
  | succ k ih =>
    simp only [Host.Core.run, run]
    rw [show Sys2Proof.core.step s = step s from rfl]
    cases step s with
    | next t => exact ih t
    | fault r => rfl
    | refused r => rfl

end Sys2Proof.Machine
end

