-- ==== Sys2Proof/Tests/Slice0.lean ====
section
/-!
SUPPORT. The model's own tests. Expected results are spec/95_test_vectors.md's, or words written out by
hand from spec/30_encoding.md's tables; and, for every statement with hypotheses, a witness that
meets them together, at the boundary values of its clauses.
-/

namespace Sys2Proof.Tests

open Sys2Proof Sys2Proof.Machine

/-! ### Helpers -/

/-- A state tuple `(ACC, POS, NE, FAULT, CAUSE)` of 95_test_vectors.md with one command presented. -/
def at_ (acc : Digit) (pos : BitVec 3) (ne fault : Bool) (cause : BitVec 2) (w : Byte) : State :=
  { State.reset with acc := acc, pos := pos, ne := ne, fault := fault, cause := cause,
                     input := [.command w] }

/-- The same on an engine without wrapper. -/
def bare (s : State) : State := { s with params := { s.params with hasWrapper := false } }

/-- The tuple and the responses after a step. -/
structure Seen where
  acc : Digit
  pos : BitVec 3
  ne : Bool
  fault : Bool
  cause : BitVec 2
  responses : List Byte
  deriving DecidableEq, Repr

/-- What a test looks at. -/
def seen : Result → Option Seen
  | .next s => some ⟨s.acc, s.pos, s.ne, s.fault, s.cause, s.responses⟩
  | .fault _ => none
  | .refused _ => none

/-! ### Decoding (R80, R85, R87; 95_test_vectors.md 3.5) -/

theorem test_decode_init : decode true 0b0000_0000#8 = .instr .init := by decide
theorem test_decode_abs : decode false 0b0001_1001#8 = .instr (.abs 9#4) := by decide
theorem test_decode_abs_out_of_range : decode true 0b0001_1010#8 = .instr (.abs 10#4) := by decide
theorem test_decode_rdc : decode false 0b0010_0000#8 = .instr .rdc := by decide
theorem test_decode_gen : decode true 0b0011_0000#8 = .instr .gen := by decide
theorem test_decode_val : decode true 0b0100_0000#8 = .instr .val := by decide
theorem test_decode_stat : decode false 0b0101_0000#8 = .instr .stat := by decide
theorem test_decode_no_wrapper : decode false 0x40#8 = .reserved .noWrapper := by decide
theorem test_decode_nonzero_arg : decode true 0x0F#8 = .reserved .nonZeroArg := by decide
theorem test_decode_first_unused : decode true 0x60#8 = .reserved .unusedOp := by decide
theorem test_decode_last_word : decode true 0xFF#8 = .reserved .unusedOp := by decide
theorem test_encode_abs : encode (.abs 6#4) = 0x16#8 := by decide
theorem test_table_word : decodeTableWord 8 0x10 = some (.abs 0#4) := by decide
theorem test_table_word_reserved : decodeTableWord 8 0x51 = none := by decide

/-! ### Ill-formed terms the checks refuse -/

theorem test_gen_needs_wrapper : Instr.wf false .gen = false := by decide
theorem test_val_needs_wrapper : Instr.wf false .val = false := by decide

/-- One cell of `D` wrong: `D[1][1] = 0`. -/
def wrongD : Tables := { standardTables with d := romD.set 1 (romD[1].set 1 0) }
/-- `D` with rows 0 and 1 exchanged. -/
def swappedD : Tables := { standardTables with d := (romD.set 0 romD[1]).set 1 romD[0] }
/-- `INV[1] = 1`. -/
def wrongInv : Tables := { standardTables with inv := romInv.set 1 1 }
/-- `NUM[0][0] = 1`. -/
def wrongNum : Tables := { standardTables with num := romNum.set 0 (romNum[0].set 0 1) }
/-- Every row of `NUM` the identity. -/
def flatNum : Tables := { standardTables with num := Vector.replicate 8 romNum[0] }

theorem test_refuses_latin_square : ¬ wrongD.LatinSquare := by decide
theorem test_refuses_associative : ¬ wrongD.Associative := by decide
theorem test_refuses_zero_identity : ¬ swappedD.ZeroIdentity := by decide
theorem test_refuses_right_inverses : ¬ wrongInv.RightInverses := by decide
theorem test_refuses_left_inverses : ¬ wrongInv.LeftInverses := by decide
theorem test_refuses_bijective_rows : ¬ wrongNum.BijectiveRows := by decide
theorem test_refuses_row_zero : ¬ wrongNum.RowZeroIdentity := by decide
theorem test_refuses_anti_symmetric : ¬ flatNum.AntiSymmetric := by decide

/-! ### One step (95_test_vectors.md 3.1 to 3.4) -/

theorem test_init : seen (step (at_ 7 5 true false 0 0x00#8)) =
    some ⟨0, 0, false, false, 0, [0x00#8]⟩ := by decide
theorem test_init_faulted : seen (step (at_ 3 1 true true 1 0x00#8)) =
    some ⟨3, 1, true, true, 1, [0xAF#8]⟩ := by decide
theorem test_abs_not_commutative : seen (step (at_ 5 0 true false 0 0x11#8)) =
    some ⟨9, 1, true, false, 0, [0x00#8]⟩ := by decide
theorem test_abs_wraps : seen (step (at_ 4 7 false false 0 0x19#8)) =
    some ⟨7, 0, true, false, 0, [0x00#8]⟩ := by decide
theorem test_rdc : seen (step (at_ 8 4 true false 0 0x20#8)) =
    some ⟨8, 4, true, false, 0, [0x08#8]⟩ := by decide
theorem test_rdc_empty : seen (step (bare (at_ 0 0 false false 0 0x20#8))) =
    some ⟨0, 0, false, true, 2, [0xCF#8]⟩ := by decide
theorem test_gen : seen (step (at_ 2 4 true false 0 0x30#8)) =
    some ⟨2, 4, true, false, 0, [0x03#8]⟩ := by decide
theorem test_gen_without_wrapper : seen (step (bare (at_ 3 1 true false 0 0x30#8))) =
    some ⟨3, 1, true, true, 3, [0xEF#8]⟩ := by decide
theorem test_val_valid : seen (step (at_ 0 4 true false 0 0x40#8)) =
    some ⟨0, 4, true, false, 0, [0x01#8]⟩ := by decide
theorem test_val_invalid : seen (step (at_ 4 4 true false 0 0x40#8)) =
    some ⟨4, 4, true, false, 0, [0x00#8]⟩ := by decide
theorem test_stat_faulted : seen (step (at_ 3 1 true true 1 0x50#8)) =
    some ⟨3, 1, true, true, 1, [0xB9#8]⟩ := by decide
theorem test_stat_without_wrapper : seen (step (bare (at_ 3 1 true true 3 0x50#8))) =
    some ⟨3, 1, true, true, 3, [0xF1#8]⟩ := by decide

theorem test_digit_range : seen (step (at_ 3 1 true false 0 0x1A#8)) =
    some ⟨3, 1, true, true, 1, [0xAF#8]⟩ := by decide
theorem test_reserved : seen (step (at_ 0 0 false false 0 0x51#8)) =
    some ⟨0, 0, false, true, 3, [0xEF#8]⟩ := by decide
theorem test_reserved_faulted : seen (step (at_ 3 1 true true 1 0x51#8)) =
    some ⟨3, 1, true, true, 1, [0xAF#8]⟩ := by decide
theorem test_reset_event :
    seen (step { at_ 3 1 true true 1 0x51#8 with input := [.reset] }) =
      some ⟨0, 0, false, false, 0, []⟩ := by decide
theorem test_first_word_after_reset : seen (step (State.reset.withFetchWord 8 0x50)) =
    some ⟨0, 0, false, false, 0, [0x08#8]⟩ := by decide

/-! ### Sequences and notation (95_test_vectors.md 1, 3.6, 3.7; R92) -/

theorem test_fold_scenario_1 : fold standardTables ⟨2, [3, 6, 3]⟩ = 8 := by decide
theorem test_check_digit_scenario_2 : computeCheckDigit standardTables [6, 3, 2] = 3 := by decide
theorem test_validate_corrected : validate standardTables ⟨3, [6, 3, 2]⟩ = .valid := by decide
theorem test_fold_wraps :
    fold standardTables ⟨0, [2, 1, 0, 9, 8, 7, 6, 5, 4, 3, 2, 1]⟩ = 0 := by decide
theorem test_fold_nines : fold standardTables ⟨0, List.replicate 16 9⟩ = 2 := by decide
theorem test_order : order ⟨0, [1, 2, 3, 4, 5]⟩ = ⟨0, [5, 4, 3, 2, 1]⟩ := by decide

/-- `VALIDATE_STR "3236"` is the words `00 13 16 13 12 40` (R92). -/
theorem test_validate_str :
    assembleLine (['V', 'A', 'L', 'I', 'D', 'A', 'T', 'E', '_', 'S', 'T', 'R', ' '] ++
      [quoteMark, '3', '2', '3', '6', quoteMark]) =
      some [0x00#8, 0x13#8, 0x16#8, 0x13#8, 0x12#8, 0x40#8] := by decide
theorem test_compute : assembleLine ['C', 'O', 'M', 'P', 'U', 'T', 'E', ' ', '6', ' ', '3'] =
    some [0x00#8, 0x10#8, 0x16#8, 0x13#8, 0x30#8] := by decide
theorem test_text : assemble ['A', 'B', 'S', ' ', '1', '5', ';', 'x', '\n', 'R', 'D', 'C'] =
    some [0x1F#8, 0x20#8] := by decide
theorem test_word_line : assembleLine ['.', 'w', 'o', 'r', 'd', ' ', '0', 'x', '5', 'F'] =
    some [0x5F#8] := by decide
theorem test_operand_too_large : assembleLine ['A', 'B', 'S', ' ', '1', '6'] = none := by decide

/-! ### Witnesses: each statement's hypotheses are met together -/

/-- A running engine in the middle of a sequence, at the last position. -/
def midway : State := { at_ 3 7 true false 0 0x1A#8 with responses := [0x00#8] }
/-- A running engine that has absorbed nothing. -/
def fresh : State := State.reset
/-- A faulted engine. -/
def faulted : State := at_ 3 1 true true 1 0x00#8

theorem witness_InitLeavesTheResetState : midway.Inv ∧ midway.fault = false := by decide
theorem witness_InitStartsAnInvocation :
    midway.fault = false ∧ (1#4 : Nibble) ≠ 0#4 ∧ (15#4 : Nibble) ≠ 0#4 := by decide
theorem witness_AbsAbsorbsOneDigit :
    midway.fault = false ∧ (9#4 : Nibble).toNat < 10 ∧ 9#4 < (10#4 : Nibble) ∧
      9#4 < (15#4 : Nibble) := by decide
theorem witness_AbsZeroIsNeutralOnlyAtTheStart :
    (fresh.params.tables = standardTables ∧ fresh.fault = false ∧ fresh.acc = 0 ∧ fresh.pos = 0#3) ∧
      midway.fault = false ∧ midway.pos = 7#3 := by decide
theorem witness_RdcReturnsTheAccumulator :
    (midway.fault = false ∧ midway.ne = true) ∧ fresh.fault = false ∧ fresh.ne = false := by decide
theorem witness_GenReturnsTheInverse :
    (midway.fault = false ∧ midway.params.hasWrapper = true ∧ midway.ne = true) ∧
    (fresh.fault = false ∧ fresh.params.hasWrapper = true ∧ fresh.ne = false) ∧
      (bare midway).fault = false ∧ (bare midway).params.hasWrapper = false := by decide
theorem witness_ValReturnsTheVerdict :
    (midway.fault = false ∧ midway.params.hasWrapper = true ∧ midway.ne = true ∧ midway.acc ≠ 0) ∧
    ({ midway with acc := 0 }.fault = false ∧ { midway with acc := 0 }.ne = true) ∧
    (fresh.fault = false ∧ fresh.params.hasWrapper = true ∧ fresh.ne = false) ∧
      (bare midway).fault = false ∧ (bare midway).params.hasWrapper = false := by decide
theorem witness_StatReturnsTheStatusRegister : fresh.fault = false ∧ (1#4 : Nibble) ≠ 0#4 := by
  decide
theorem witness_ResultOfTheEmptySequenceFaults :
    fresh.fault = false ∧ fresh.ne = false ∧ fresh.params.hasWrapper = true ∧
      seen (step { fresh with input := [.command 0x40#8] }) =
        some ⟨0, 0, false, true, 2, [0xCF#8]⟩ := by decide
theorem witness_ReservedWordsRaiseIllegalCommand :
    midway.fault = false ∧ 6 ≤ ((0x60#8 : Byte).extractLsb' 4 4).toNat ∧
      (((0x5F#8 : Byte).extractLsb' 4 4).toNat ∈ [0, 2, 3, 4, 5] ∧
        (0x5F#8 : Byte).extractLsb' 0 4 ≠ 0#4) ∧
      (bare midway).fault = false ∧ (bare midway).params.hasWrapper = false := by decide
theorem witness_FaultCodesNameTheirConditions : midway.fault = false ∧ (bare fresh).fault = false := by
  decide
theorem witness_DecodeAndEncodeAgree :
    decode true 0x1F#8 = .instr (.abs 15#4) ∧ Instr.wf true (.abs 15#4) = true ∧
      encode (.abs 15#4) = 0x1F#8 := by decide
theorem witness_OpcodeMapRowsSelectTheirCommands :
    (opcodeRow (.abs 0#4)).selects 0x1F#8 = true ∧ (opcodeRow (.abs 15#4)).selects 0x1F#8 = true := by
  decide
theorem witness_StepRunsTheDecodedCommand :
    midway.input = .command 0x1A#8 :: [] ∧
      decode midway.params.hasWrapper 0x1A#8 = .instr (.abs 10#4) := by decide
theorem witness_EngineWaitsForTheNextCommand : fresh.input = [] := by decide
theorem witness_OnlyResetClearsFaultAndCause :
    ∃ t, step { faulted with input := [.reset] } = .next t ∧ faulted.fault = true ∧
      t.fault = false ∧ faulted.cause ≠ 0#2 ∧ t.cause = 0#2 := ⟨_, rfl, by decide⟩
theorem witness_ResetEventClearsTheEngine : faulted.fault = true := by decide
theorem witness_ResponsesCarryFaultAndCause : midway.Inv ∧ faulted.Inv ∧ fresh.Inv := by decide
theorem witness_FaultEntryIsPrecise :
    midway.fault = false ∧ ∃ t, step midway = .next t ∧ t.fault = true := ⟨by decide, _, rfl, by decide⟩
theorem witness_FaultStateAnswersOnlyStat :
    faulted.fault = true ∧ (0x00#8 : Byte) ≠ 0x50#8 ∧ Instr.abs 3#4 ≠ .stat := by decide
theorem witness_FaultLastsUntilReset :
    faulted.fault = true ∧ HostInput.reset ∉ faulted.input.take 1 := by decide
theorem witness_EveryStepKeepsTheInvariant : midway.Inv ∧ ∃ t, step midway = .next t :=
  ⟨by decide, _, rfl⟩
theorem witness_NoStepChangesTheParameters : ∃ t, step midway = .next t := ⟨_, rfl⟩
theorem witness_FrameOfTheReadingCommands :
    (∃ t, exec .gen midway = .next t ∧ t.fault = false) ∧
    (∃ t, exec .rdc faulted = .next t ∧ faulted.fault = true) ∧
      ∃ t, exec .stat midway = .next t := ⟨⟨_, rfl, by decide⟩, ⟨_, rfl, by decide⟩, _, rfl⟩
theorem witness_FrameOfTheAccumulateCommands :
    (∃ t, exec .init midway = .next t) ∧
    (∃ t, exec (.abs 9#4) midway = .next t ∧ (9#4 : Nibble).toNat < 10) ∧
    (∃ t, exec (.abs 10#4) midway = .next t ∧ 10 ≤ (10#4 : Nibble).toNat) ∧
      ∃ t, faulted.fault = true ∧ exec (.abs 3#4) faulted = .next t :=
  ⟨⟨_, rfl⟩, ⟨_, rfl, by decide⟩, ⟨_, rfl, by decide⟩, _, by decide, rfl⟩
theorem witness_OnlyInitAndAbsWriteTheDatapath :
    ((0x50#8 : Byte) ≠ 0x00#8 ∧ (0x50#8 : Byte).extractLsb' 4 4 ≠ 1#4) ∧
      (0x19#8 : Byte).extractLsb' 4 4 = 1#4 := by decide
/-- For EngineComputesTheFold, WithoutInitTheOldSequenceGoesOn, FoldStreamAnswersTheFold,
ComputeStreamAnswersTheCheckDigit, ValidateStreamAnswersTheVerdict, MidStreamReadGivesThePrefixFold. -/
theorem witness_streams :
    midway.fault = false ∧ midway.params.hasWrapper = true := by decide
theorem witness_EngineValidatesWhatItGenerates :
    midway.params.tables.GroupLaws ∧ midway.params.hasWrapper = true ∧ midway.fault = false := by
  decide
/-- For FoldIsTheProductOfPermutedDigits, GeneratedCheckDigitValidates, CheckDigitIsUnique. -/
theorem witness_GroupLaws : standardTables.GroupLaws := by decide
theorem witness_SingleDigitErrorIsDetected :
    standardTables.WellFormed ∧ standardTables.GroupLaws ∧
      DigitSeq.toList ⟨3, [6, 3, 2]⟩ = [3, 6, 3] ++ 2 :: [] ∧
      DigitSeq.toList ⟨3, [6, 3, 4]⟩ = [3, 6, 3] ++ 4 :: [] ∧ (2 : Digit) ≠ 4 ∧
      validate standardTables ⟨3, [6, 3, 2]⟩ = .valid := by decide
theorem witness_AdjacentTranspositionIsDetected :
    standardTables.WellFormed ∧ standardTables.GroupLaws ∧ standardTables.AntiSymmetric ∧
      DigitSeq.toList ⟨3, [6, 3, 2]⟩ = [] ++ 3 :: 6 :: [3, 2] ∧
      DigitSeq.toList ⟨6, [3, 3, 2]⟩ = [] ++ 6 :: 3 :: [3, 2] ∧ (3 : Digit) ≠ 6 ∧
      validate standardTables ⟨3, [6, 3, 2]⟩ = .valid := by decide
theorem witness_OrderReversesAllButTheFirst :
    1 ≤ 3 ∧ 3 < (DigitSeq.toList ⟨3, [2, 3, 6]⟩).length := by decide
theorem witness_ResultCommandsAgree :
    midway.params = standardConfig ∧ midway.fault = false ∧ midway.ne = true := by decide
theorem witness_EngineFaultsExactlyWhenTheHostBreaksTheContract :
    (fresh.fault = false ∧ hostKeeps fresh.params.hasWrapper fresh.ne fresh.input = true) ∧
    (hostKeeps true false [.command 0x00#8, .command 0x19#8, .command 0x40#8, .reset] = true) ∧
      midway.fault = false ∧ HostInput.reset ∉ midway.input ∧
      hostKeeps midway.params.hasWrapper midway.ne midway.input = false := by decide
theorem witness_ReadingCommandsNeverMatterLater :
    { midway with input := [.command 0x20#8, .command 0x13#8] }.fault = false ∧
      hostKeeps true true [.command 0x20#8, .command 0x13#8] = true ∧ isRead 0x20#8 = true := by
  decide
theorem witness_ResponsesDependOnStateAndCommandsOnly :
    State.SameEngine midway { midway with responses := [], input := [] } := by decide
theorem witness_InverseRomIsAbsentWithoutTheWrapper :
    (bare midway).params.hasWrapper = false := by decide
theorem witness_InstancesDoNotTouchEachOther :
    [midway, fresh][1]? = some fresh ∧ 0 ≠ 1 := by decide

end Sys2Proof.Tests
end

section
/-!
PROOFS. The statements of spec/00_scope.md. First what every step does whatever the state: it answers
a next state (R11) and keeps the parameters (R21). Then the INV ROM without the wrapper (R7): another
contents of INV commutes with every operation that does not read it, hence with a step and with a run.
-/

namespace Sys2Proof.Machine

variable {s t e : State} {i : Instr}

/-! ### Every step answers a next state and keeps the parameters -/

/-- Every command is executed and answered (R82). -/
theorem exec_next (i : Instr) (s : State) : ∃ t, exec i s = .next t := by
  cases i <;> exact ⟨_, rfl⟩

theorem execWord_next (w : Byte) (s : State) : ∃ t, execWord w s = .next t := by
  unfold execWord
  split
  · exact exec_next _ s
  · exact whenRunning_next

/-- The step is total (R11; log 11). -/
theorem step_next (s : State) : ∃ t, step s = .next t := by
  cases hi : s.input with
  | nil => exact ⟨s, by simp [step, serveNext, hi]⟩
  | cons e rest =>
    cases e with
    | reset => exact ⟨_, step_of_reset hi⟩
    | command w =>
      rw [step_of_command hi]
      exact execWord_next w _

theorem exec_keeps_params (h : exec i s = .next t) : t.params = s.params := by
  rcases exec_cases h with ⟨-, rfl⟩ | ⟨-, -, rfl⟩ | ⟨-, k, -, rfl⟩ | ⟨-, -, rfl⟩ | ⟨-, d, -, rfl⟩ |
    ⟨-, -, x, -, rfl⟩ <;> rfl

theorem execReserved_keeps_params (h : execReserved s = .next t) : t.params = s.params := by
  rcases execReserved_cases h with ⟨-, rfl⟩ | ⟨-, rfl⟩ <;> rfl

theorem execWord_keeps_params {w : Byte} (h : execWord w s = .next t) : t.params = s.params := by
  rcases execWord_cases h with ⟨i, -, hexec⟩ | ⟨r, -, hreserved⟩
  · exact exec_keeps_params hexec
  · exact execReserved_keeps_params hreserved

theorem step_keeps_params (h : step s = .next t) : t.params = s.params := by
  rcases step_cases h with ⟨-, rfl⟩ | ⟨rest, -, rfl⟩ | ⟨w, rest, -, hword⟩
  · rfl
  · rfl
  · rw [execWord_keeps_params hword, takeInput_params]

/-! ### Another contents of INV -/

/-- The same engine with other contents of the INV ROM (R53). -/
def withInv (inv' : Vector Digit 10) (s : State) : State :=
  { s with params := { s.params with tables := { s.params.tables with inv := inv' } } }

variable (inv' : Vector Digit 10)

@[simp] theorem withInv_hasWrapper :
    (withInv inv' s).params.hasWrapper = s.params.hasWrapper := rfl
@[simp] theorem withInv_input : (withInv inv' s).input = s.input := rfl

/-! No shared operation but the ROM read of GEN looks at INV: each commutes with `withInv`. -/

theorem withInv_respond (r : Byte) (s : State) :
    withInv inv' (respond r s) = respond r (withInv inv' s) := rfl
theorem withInv_raise (k : FaultCause) (s : State) :
    withInv inv' (raise k s) = raise k (withInv inv' s) := rfl
theorem withInv_answerFaulted (s : State) :
    withInv inv' (answerFaulted s) = answerFaulted (withInv inv' s) := rfl
theorem withInv_absorb (v : Digit) (s : State) :
    withInv inv' (absorb v s) = absorb v (withInv inv' s) := rfl
theorem withInv_applyReset (s : State) :
    withInv inv' (applyReset s) = applyReset (withInv inv' s) := rfl
theorem withInv_takeInput (rest : List HostInput) (s : State) :
    withInv inv' (takeInput rest s) = takeInput rest (withInv inv' s) := rfl

theorem withInv_whenNonEmpty (s e : State) :
    withInv inv' (whenNonEmpty s e) = whenNonEmpty (withInv inv' s) (withInv inv' e) := by
  cases hn : s.ne with
  | true => rw [whenNonEmpty_nonEmpty hn, whenNonEmpty_nonEmpty (s := withInv inv' s) hn]
  | false =>
    rw [whenNonEmpty_empty hn, whenNonEmpty_empty (s := withInv inv' s) hn, withInv_raise]

theorem whenRunning_withInv (h : whenRunning s e = .next t) :
    whenRunning (withInv inv' s) (withInv inv' e) = .next (withInv inv' t) := by
  rcases whenRunning_cases h with ⟨hf, rfl⟩ | ⟨hf, rfl⟩
  · rw [whenRunning_faulted (s := withInv inv' s) hf, withInv_answerFaulted]
  · exact whenRunning_running (s := withInv inv' s) hf

/-- A command of the wrapper raises IllegalCommand without it (R184), whatever its effect would be. -/
theorem whenRunning_whenWrapper_withInv (hw : s.params.hasWrapper = false) (e' : State)
    (h : whenRunning s (whenWrapper s e) = .next t) :
    whenRunning (withInv inv' s) (whenWrapper (withInv inv' s) e') = .next (withInv inv' t) := by
  rw [whenWrapper_absent hw] at h
  rw [whenWrapper_absent (s := withInv inv' s) hw, ← withInv_raise]
  exact whenRunning_withInv inv' h

/-- Without the wrapper no command reads INV: GEN, the only one that would, is refused (R7, R60). -/
theorem exec_withInv (hw : s.params.hasWrapper = false) (h : exec i s = .next t) :
    exec i (withInv inv' s) = .next (withInv inv' t) := by
  cases i with
  | init => exact whenRunning_withInv inv' h
  | abs v =>
    have effect := whenRunning_withInv inv' h
    cases hd : digitOperand v with
    | none => simpa only [exec, execAbs, hd, withInv_raise] using effect
    | some d => simpa only [exec, execAbs, hd, withInv_respond, withInv_absorb] using effect
  | rdc =>
    have effect := whenRunning_withInv inv' h
    rwa [withInv_whenNonEmpty] at effect
  | gen => exact whenRunning_whenWrapper_withInv inv' hw _ h
  | val => exact whenRunning_whenWrapper_withInv inv' hw _ h
  | stat =>
    obtain rfl : respond (statusByte s) s = t := by simpa [exec, execStat] using h
    rfl

theorem execReserved_withInv (h : execReserved s = .next t) :
    execReserved (withInv inv' s) = .next (withInv inv' t) :=
  whenRunning_withInv inv' h

theorem execWord_withInv {w : Byte} (hw : s.params.hasWrapper = false)
    (h : execWord w s = .next t) : execWord w (withInv inv' s) = .next (withInv inv' t) := by
  rcases execWord_cases h with ⟨i, hi, hexec⟩ | ⟨r, hr, hreserved⟩
  · simpa only [execWord, withInv_hasWrapper, hi] using exec_withInv inv' hw hexec
  · simpa only [execWord, withInv_hasWrapper, hr] using execReserved_withInv inv' hreserved

theorem step_withInv (hw : s.params.hasWrapper = false) (h : step s = .next t) :
    step (withInv inv' s) = .next (withInv inv' t) := by
  rcases step_cases h with ⟨hi, rfl⟩ | ⟨rest, hi, rfl⟩ | ⟨w, rest, hi, hword⟩
  · simp [step, serveNext, hi]
  · rw [step_of_reset (s := withInv inv' s) hi, withInv_applyReset, withInv_takeInput]
  · rw [step_of_command (s := withInv inv' s) hi, ← withInv_takeInput]
    exact execWord_withInv inv' hw hword

/-- The step carries `withInv` and the absent wrapper along, so a run of any length does. -/
theorem run_withInv (k : Nat) (hw : s.params.hasWrapper = false) :
    ∃ t, run k s = .next t ∧ run k (withInv inv' s) = .next (withInv inv' t) := by
  induction k generalizing s with
  | zero => exact ⟨s, rfl, rfl⟩
  | succ k ih =>
    obtain ⟨u, hu⟩ := step_next s
    have hwu : u.params.hasWrapper = false := by rw [step_keeps_params hu, hw]
    rw [run_succ hu, run_succ (step_withInv inv' hw hu)]
    exact ih hwu

end Sys2Proof.Machine

open Sys2Proof Sys2Proof.Machine

/-- Settles O54, by induction on the number of steps: without the wrapper each step commutes with
exchanging the contents of INV. -/
theorem inverseRomIsAbsentWithoutTheWrapper : Obligations.InverseRomIsAbsentWithoutTheWrapper := by
  intro s inv' k hw
  exact run_withInv inv' k hw

/-- Settles O19: the step executes the presented word on the state without it, and a word that
decodes to a command executes as that command. -/
theorem stepRunsTheDecodedCommand : Obligations.StepRunsTheDecodedCommand := by
  intro s w rest i hinput hdecode
  calc step s = execWord w (takeInput rest s) := step_of_command hinput
    _ = exec i (takeInput rest s) := by simp only [execWord, takeInput_params, hdecode]

end

section
/-!
PROOFS. The statements of spec/10_state.md. First what one command word can do to the five state
elements (R20), as one relation, `WordEffect`, with one constructor per kind of effect. The frames, the
lasting fault and the invariant are then each a case analysis over it.
-/

namespace Sys2Proof

/-- Only the command's own word decodes to it (R85, R86). -/
theorem encode_of_decode {hw : Bool} {w : Byte} {i : Instr} (h : decode hw w = .instr i) :
    encode i = w := by
  unfold decode at h
  split_ifs at h with habs hinit hrdc hstat hgen hval
  · obtain rfl : Instr.abs (argField w) = i := by simpa using h
    calc encode (.abs (argField w)) = opField w ++ argField w := by rw [habs]; rfl
      _ = w := fields_append w
  · obtain rfl : Instr.init = i := by simpa using h
    exact hinit.symm
  · obtain rfl : Instr.rdc = i := by simpa using h
    exact hrdc.symm
  · obtain rfl : Instr.stat = i := by simpa using h
    exact hstat.symm
  · obtain ⟨-, rfl⟩ := wrapped_eq_instr.mp h
    exact hgen.symm
  · obtain ⟨-, rfl⟩ := wrapped_eq_instr.mp h
    exact hval.symm

namespace Machine

variable {s t : State} {w : Byte}

/-! ### What a word can do to the engine -/

/-- What a command word can do to the engine, whatever byte a response that writes no register
carries: answer only, on a faulted engine (R187) or as a reading command (R124, R140); enter the fault
state (R186); or write the registers as INIT (R100) or ABS (R101) does. -/
inductive WordEffect (w : Byte) (s : State) : State → Prop where
  | answers (r : Byte) (why : s.fault = true ∨ isRead w = true) : WordEffect w s (respond r s)
  | faults (running : s.fault = false) (k : FaultCause) : WordEffect w s (raise k s)
  | starts (running : s.fault = false) (hw : w = 0x00#8) :
      WordEffect w s (respond 0x00#8 (startSequence s))
  | absorbs (running : s.fault = false) (hw : opField w = 0x1#4) (d : Digit) :
      WordEffect w s (respond 0x00#8 (absorb d s))

/-- A command with a result has one of the words that write no state (R124). -/
theorem isRead_of_resultData {i : Instr} {x : Nibble} (h : resultData s i = some x) :
    isRead (encode i) = true := by
  cases i with
  | rdc | gen | val => rfl
  | init | abs | stat => simp [resultData] at h

theorem exec_effect {i : Instr} (h : exec i s = .next t) : WordEffect (encode i) s t := by
  rcases exec_cases h with ⟨rfl, rfl⟩ | ⟨-, hf, rfl⟩ | ⟨hf, k, -, rfl⟩ | ⟨hf, rfl, rfl⟩ |
    ⟨hf, d, rfl, rfl⟩ | ⟨-, -, x, hx, rfl⟩
  · exact .answers _ (.inr rfl)
  · exact .answers _ (.inl hf)
  · exact .faults hf k
  · exact .starts hf rfl
  · exact .absorbs hf (opField_abs _) d
  · exact .answers _ (.inr (isRead_of_resultData hx))

/-- Every executed word, decoded or reserved, has one of the four effects. -/
theorem execWord_effect (h : execWord w s = .next t) : WordEffect w s t := by
  rcases execWord_cases h with ⟨i, hi, hexec⟩ | ⟨r, -, hreserved⟩
  · rw [← encode_of_decode hi]
    exact exec_effect hexec
  · rcases execReserved_cases hreserved with ⟨hf, rfl⟩ | ⟨hf, rfl⟩
    · exact .answers _ (.inl hf)
    · exact .faults hf _

namespace WordEffect

/-- No word touches what the host has still to be served (R64). -/
theorem keeps_input (h : WordEffect w s t) : t.input = s.input := by
  cases h <;> rfl

/-- A faulted engine only answers (R187). -/
theorem sameEngine_of_faulted (h : WordEffect w s t) (hf : s.fault = true) :
    State.SameEngine s t := by
  cases h with
  | answers r => exact sameEngine_respond r s
  | faults running | starts running | absorbs running => simp [hf] at running

/-- No word clears FAULT (R33). -/
theorem keeps_fault (h : WordEffect w s t) (hf : s.fault = true) : t.fault = true := by
  obtain ⟨-, -, -, -, hfault, -⟩ := h.sameEngine_of_faulted hf
  rw [← hfault, hf]

/-- No word clears CAUSE (R33): a fault writes its code, which is not 0, and nothing else writes it. -/
theorem keeps_cause_ne_zero (h : WordEffect w s t) (hc : s.cause ≠ 0#2) : t.cause ≠ 0#2 := by
  cases h with
  | faults _ k => exact code_ne_zero k
  | answers | starts | absorbs => exact hc

/-! The datapath: ACC, POS and NE (R22, R23, R25). -/

theorem datapath_of_other_word (h : WordEffect w s t) (hinit : w ≠ 0x00#8)
    (habs : opField w ≠ 0x1#4) : t.acc = s.acc ∧ t.pos = s.pos ∧ t.ne = s.ne := by
  cases h with
  | answers | faults => exact ⟨rfl, rfl, rfl⟩
  | starts _ hw => exact absurd hw hinit
  | absorbs _ hw => exact absurd hw habs

/-- The word of a reading command is neither INIT's nor one of ABS's. -/
theorem isRead_eq_false_of_writing_word (hw : w = 0x00#8 ∨ opField w = 0x1#4) :
    isRead w = false := by
  revert w; decide

/-- A word of INIT or ABS that leaves no fault has done its register writes. -/
theorem writes_of_writing_word (h : WordEffect w s t) (hw : w = 0x00#8 ∨ opField w = 0x1#4)
    (ht : t.fault = false) :
    (w = 0x00#8 ∧ t.acc = 0 ∧ t.pos = 0#3 ∧ t.ne = false) ∨
      (opField w = 0x1#4 ∧ t.pos = s.pos + 1#3 ∧ t.ne = true) := by
  cases h with
  | answers r why =>
    have faulted : s.fault = true := by simpa [isRead_eq_false_of_writing_word hw] using why
    simp [faulted] at ht
  | faults => simp at ht
  | starts _ hinit => exact .inl ⟨hinit, rfl, rfl, rfl⟩
  | absorbs _ habs => exact .inr ⟨habs, rfl, rfl⟩

theorem datapath_of_fault (h : WordEffect w s t) (ht : t.fault = true) :
    t.acc = s.acc ∧ t.pos = s.pos ∧ t.ne = s.ne := by
  cases h with
  | answers | faults => exact ⟨rfl, rfl, rfl⟩
  | starts running | absorbs running => simp [running] at ht

end WordEffect

/-! ### The invariant -/

theorem inv_launch (p : Config) : (State.launch p).Inv := by simp [State.Inv]

theorem inv_applyReset (s : State) : (applyReset s).Inv := by simp [State.Inv]

theorem inv_raise (k : FaultCause) (h : s.Inv) : (raise k s).Inv := by
  obtain ⟨-, hempty⟩ := h
  exact ⟨by simp [code_ne_zero], hempty⟩

/-- Every word keeps the invariant: a fault writes FAULT and CAUSE together, INIT clears NE together
with ACC and POS, and ABS sets NE. -/
theorem WordEffect.keeps_inv (h : WordEffect w s t) (hs : s.Inv) : t.Inv := by
  have hcause := hs.1
  cases h with
  | answers => exact hs
  | faults _ k => exact inv_raise k hs
  | starts => exact ⟨hcause, fun _ => ⟨rfl, rfl⟩⟩
  | absorbs => exact ⟨hcause, by simp⟩

/-! ### Steps -/

/-- Everything a step can do, with the effect of the word it executes. -/
theorem step_effect (h : step s = .next t) :
    (s.input = [] ∧ t = s) ∨
    (∃ rest, s.input = .reset :: rest ∧ t = applyReset (takeInput rest s)) ∨
    (∃ w rest, s.input = .command w :: rest ∧ WordEffect w (takeInput rest s) t) := by
  rcases step_cases h with hwait | hreset | ⟨w, rest, hi, hword⟩
  · exact .inl hwait
  · exact .inr (.inl hreset)
  · exact .inr (.inr ⟨w, rest, hi, execWord_effect hword⟩)

/-- A presented word is executed and has its effect (R82). -/
theorem step_command_effect (s : State) (w : Byte) (rest : List HostInput) : ∃ t,
    step { s with input := .command w :: rest } = .next t ∧
      WordEffect w { s with input := rest } t := by
  obtain ⟨t, ht⟩ := execWord_next w { s with input := rest }
  exact ⟨t, (step_of_command rfl).trans ht, execWord_effect ht⟩

theorem step_keeps_inv (h : step s = .next t) (hs : s.Inv) : t.Inv := by
  rcases step_effect h with ⟨-, rfl⟩ | ⟨rest, -, rfl⟩ | ⟨w, rest, -, hword⟩
  · exact hs
  · exact inv_applyReset _
  · exact hword.keeps_inv hs

/-- A step serves the oldest event and no other (R64). -/
theorem step_input (h : step s = .next t) : t.input = s.input.tail := by
  rcases step_effect h with ⟨hi, rfl⟩ | ⟨rest, hi, rfl⟩ | ⟨w, rest, hi, hword⟩
  · rw [hi, List.tail_nil]
  · rw [hi, applyReset_input, takeInput_input, List.tail_cons]
  · rw [hi, hword.keeps_input, takeInput_input, List.tail_cons]

theorem step_sameEngine_of_faulted (h : step s = .next t) (hf : s.fault = true)
    (hevent : s.input.head? ≠ some .reset) : State.SameEngine s t := by
  rcases step_effect h with ⟨-, rfl⟩ | ⟨rest, hi, -⟩ | ⟨w, rest, -, hword⟩
  · exact sameEngine_refl _
  · simp [hi] at hevent
  · exact sameEngine_trans (sameEngine_takeInput rest s) (hword.sameEngine_of_faulted hf)

/-- The faulted engine stays the same engine along a run that serves no reset (R26, R188). -/
theorem run_sameEngine_of_faulted (k : Nat) (hf : s.fault = true)
    (hinput : HostInput.reset ∉ s.input.take k) :
    ∃ t, run k s = .next t ∧ State.SameEngine s t := by
  induction k generalizing s with
  | zero => exact ⟨s, rfl, sameEngine_refl s⟩
  | succ k ih =>
    obtain ⟨u, hu⟩ := step_next s
    have hhead : s.input.head? ≠ some .reset := by
      intro hreset
      obtain ⟨rest, hi⟩ := List.head?_eq_some_iff.mp hreset
      simp [hi] at hinput
    have hsame := step_sameEngine_of_faulted hu hf hhead
    have hfu : u.fault = true := by
      obtain ⟨-, -, -, -, hfault, -⟩ := hsame
      rw [← hfault, hf]
    have hlater : HostInput.reset ∉ u.input.take k := by
      rw [step_input hu]
      intro hmem
      cases hi : s.input with
      | nil => simp [hi] at hmem
      | cons e rest =>
        rw [hi] at hinput hmem
        exact hinput (List.mem_cons_of_mem e hmem)
    obtain ⟨t, ht, hut⟩ := ih hfu hlater
    exact ⟨t, (run_succ hu).trans ht, sameEngine_trans hsame hut⟩

end Machine

end Sys2Proof

open Sys2Proof Sys2Proof.Machine

/-- Settles O26, by induction on the number of steps: each step of a faulted engine that serves no
reset leaves the same engine, and takes one event off the input. -/
theorem faultLastsUntilReset : Obligations.FaultLastsUntilReset := by
  intro k s hf hinput
  exact run_sameEngine_of_faulted k hf hinput

/-- Settles O28, by the effects a step can have: FAULT and CAUSE are written together, and whatever
leaves NE at 0 leaves ACC and POS as they were or clears them. -/
theorem everyStepKeepsTheInvariant : Obligations.EveryStepKeepsTheInvariant := by
  intro s t hs hstep
  exact step_keeps_inv hstep hs

/-- Settles O2: waiting changes nothing and no word clears FAULT or CAUSE, so a step that does so
served a reset. -/
theorem onlyResetClearsFaultAndCause : Obligations.OnlyResetClearsFaultAndCause := by
  refine ⟨fun p => ⟨launch_fault p, launch_cause p⟩,
    fun s rest => ⟨_, step_of_reset rfl, rfl, rfl⟩, fun s t hstep => ?_⟩
  rcases step_effect hstep with ⟨-, rfl⟩ | ⟨rest, hi, -⟩ | ⟨w, rest, -, hword⟩
  · exact ⟨fun hf ht => by simp [hf] at ht, fun hc ht => absurd ht hc⟩
  · simp [hi]
  · exact ⟨fun hf ht => by simp [hword.keeps_fault hf] at ht,
      fun hc ht => absurd ht (hword.keeps_cause_ne_zero hc)⟩

/-- Settles O29, by what a step can do (R21). -/
theorem noStepChangesTheParameters : Obligations.NoStepChangesTheParameters := by
  intro s t hstep
  exact step_keeps_params hstep

/-- Settles O32, by the effects a word can have: only those of INIT and ABS write the datapath, and
they leave FAULT at 0. -/
theorem onlyInitAndAbsWriteTheDatapath : Obligations.OnlyInitAndAbsWriteTheDatapath := by
  intro s w rest
  obtain ⟨t, ht, effect⟩ := step_command_effect s w rest
  refine ⟨t, ht, effect.datapath_of_other_word, fun habs hf => ?_, fun hinit hf => ?_,
    effect.datapath_of_fault⟩
  · rcases effect.writes_of_writing_word (.inr habs) hf with ⟨rfl, -⟩ | ⟨-, hwrites⟩
    · simp at habs
    · exact hwrites
  · rcases effect.writes_of_writing_word (.inl hinit) hf with ⟨-, hwrites⟩ | ⟨habs, -⟩
    · exact hwrites
    · simp [hinit, opField] at habs

/-- Settles O1, for the reset state and for a served reset event. -/
theorem resetZeroesAccPosNe : Obligations.ResetZeroesAccPosNe :=
  ⟨fun p => ⟨launch_acc p, launch_pos p, launch_ne p⟩, rfl,
    fun _ _ => ⟨_, step_of_reset rfl, applyReset_acc _, applyReset_pos _, applyReset_ne _⟩⟩

/-- Settles O4: INIT writes neither FAULT nor CAUSE, which are 0 already, CAUSE by the invariant. -/
theorem initLeavesTheResetState : Obligations.InitLeavesTheResetState := by
  rintro s ⟨hcause, -⟩ hf
  have hc : s.cause = 0#2 := hcause.mp hf
  calc exec .init s = .next (respond (dataByte ackBits) (startSequence s)) := whenRunning_running hf
    _ = _ := by simp [respond, startSequence, hf, hc]

/-- Settles O27, for this hardware's parameters and for all others. -/
theorem resetStateSatisfiesTheInvariant : Obligations.ResetStateSatisfiesTheInvariant :=
  ⟨inv_launch standardConfig, inv_launch⟩

end

section
/-!
PROOFS. The statements of spec/20_memory.md. The frames first: no command writes a ROM cell (R63), and
what the reading commands and the accumulate commands leave of the registers. Then the fold as a
product in the group that a lawful `D` is (R58, R151), and the supplied ROM contents (R52 to R58).
-/

namespace Sys2Proof.Machine

variable {s u : State}

/-! ### Frames -/

/-- The word of a reading command only answers, or faults a running engine (R124, R140). -/
theorem WordEffect.cases_of_isRead {w : Byte} (h : WordEffect w s u) (hread : isRead w = true) :
    (∃ r, u = respond r s) ∨ (s.fault = false ∧ ∃ k, u = raise k s) := by
  cases h with
  | answers r => exact .inl ⟨r, rfl⟩
  | faults running k => exact .inr ⟨running, k, rfl⟩
  | starts _ hw => simp [WordEffect.isRead_eq_false_of_writing_word (.inl hw)] at hread
  | absorbs _ hw => simp [WordEffect.isRead_eq_false_of_writing_word (.inr hw)] at hread

/-- ABS with a digit absorbs it, or only answers on a faulted engine (R101, R187). -/
theorem exec_abs_cases_of_digit {v : Nibble} (hv : v.toNat < 10) (h : exec (.abs v) s = .next u) :
    u = answerFaulted s ∨ u = respond 0x00#8 (absorb ⟨v.toNat, hv⟩ s) := by
  rcases whenRunning_cases h with ⟨-, rfl⟩ | ⟨-, rfl⟩
  · exact .inl rfl
  · exact .inr (by rw [digitOperand_of_lt hv, dataByte_ackBits])

/-- ABS with an operand that is no digit faults, or only answers on a faulted engine (R182, R187). -/
theorem exec_abs_cases_of_no_digit {v : Nibble} (hv : 10 ≤ v.toNat)
    (h : exec (.abs v) s = .next u) : u = answerFaulted s ∨ u = raise .digitRange s := by
  rcases whenRunning_cases h with ⟨-, rfl⟩ | ⟨-, rfl⟩
  · exact .inl rfl
  · exact .inr (by rw [digitOperand_of_ge hv])

/-! ### The fold in a group -/

variable {t : Tables}

/-- The loop multiplies its accumulator by the product of what is still to come: associativity moves
the brackets from the left to the right. -/
theorem foldFrom_eq_readD_permutedProduct (g : t.GroupLaws) (c : Digit) (p : BitVec 3)
    (vs : List Digit) : foldFrom t c p vs = readD t c (permutedProduct t p vs) := by
  obtain ⟨assoc, ident, -, -⟩ := g
  induction vs generalizing c p with
  | nil => exact (ident c).2.symm
  | cons v vs ih => rw [foldFrom_cons, ih, assoc, permutedProduct_cons]

/-- The closed form of R151. -/
theorem fold_eq_permutedProduct (g : t.GroupLaws) (q : DigitSeq) :
    fold t q = permutedProduct t 0#3 q.toList := by
  have loop := foldFrom_eq_readD_permutedProduct g 0 0#3 q.toList
  obtain ⟨-, ident, -, -⟩ := g
  exact loop.trans (ident _).1

/-- Row 0 of `NUM` being the identity, the first digit enters the fold unpermuted. -/
theorem fold_eq_readD_first (g : t.GroupLaws) (q : DigitSeq) :
    fold t q = readD t q.first (permutedProduct t 1#3 q.rest) := by
  rw [fold_eq_permutedProduct g, DigitSeq.toList, permutedProduct_cons]
  obtain ⟨-, -, -, row_zero⟩ := g
  rw [row_zero]
  rfl

/-- The placeholder 0 being the identity, the check digit inverts the number's own product. -/
theorem computeCheckDigit_eq_readInv (g : t.GroupLaws) (b : List Digit) :
    computeCheckDigit t b = readInv t (permutedProduct t 1#3 b) := by
  rw [computeCheckDigit, fold_eq_readD_first g]
  obtain ⟨-, ident, -, -⟩ := g
  rw [(ident _).1]

/-- In a group the left inverse is unique. -/
theorem readD_eq_zero_iff_left (g : t.GroupLaws) {x a : Digit} :
    readD t x a = 0 ↔ x = readInv t a := by
  have left : readD t (readInv t a) a = 0 := by
    obtain ⟨-, -, left, -⟩ := g
    exact left a
  constructor
  · intro h
    exact readD_right_cancel g (h.trans left.symm)
  · rintro rfl
    exact left

/-- In a group the right inverse is unique. -/
theorem readD_eq_zero_iff_right (g : t.GroupLaws) {a y : Digit} :
    readD t a y = 0 ↔ y = readInv t a := by
  constructor
  · intro h
    exact readD_left_cancel g (h.trans (readD_inv_right g a).symm)
  · rintro rfl
    exact readD_inv_right g a

/-- A verdict is Valid exactly when the fold is 0 (R154). -/
theorem validate_eq_valid {q : DigitSeq} : validate t q = .valid ↔ fold t q = 0 := by
  simp [validate]

/-! ### The table of a group is a Latin square -/

/-- A line of ten digits without a repeated value misses none. -/
theorem isPermutation_of_injective {line : Digit → Digit} (h : Function.Injective line) :
    Tables.IsPermutation line :=
  ⟨fun _ _ hxy => h hxy, Finite.surjective_of_injective h⟩

/-- R55 follows from R58: both factors cancel. -/
theorem latinSquare_of_groupLaws (g : t.GroupLaws) : t.LatinSquare :=
  ⟨fun _ => isPermutation_of_injective fun _ _ => readD_left_cancel g,
    fun _ => isPermutation_of_injective fun _ _ => readD_right_cancel g⟩

/-! ### The supplied ROM contents (log 6) -/

theorem standardTables_groupLaws : standardTables.GroupLaws := by decide

theorem standardTables_bijectiveRows : standardTables.BijectiveRows := by decide

/-- The source's three invariants: the two of `D` and `INV` hold because the cells are a group. -/
theorem standardTables_wellFormed : standardTables.WellFormed :=
  ⟨latinSquare_of_groupLaws standardTables_groupLaws, readD_inv_right standardTables_groupLaws,
    standardTables_bijectiveRows⟩

theorem standardTables_antiSymmetric : standardTables.AntiSymmetric := by decide

end Sys2Proof.Machine

open Sys2Proof Sys2Proof.Machine

/-- Settles O30: a reading command's word answers and writes nothing else, or enters the fault state
of a running engine. -/
theorem frameOfTheReadingCommands : Obligations.FrameOfTheReadingCommands := by
  constructor
  · intro i s t hi h
    have hread : isRead (encode i) = true := by rcases hi with rfl | rfl | rfl | rfl <;> rfl
    rcases (exec_effect h).cases_of_isRead hread with ⟨r, rfl⟩ | ⟨running, k, rfl⟩
    · exact ⟨rfl, rfl, rfl, rfl, rfl, fun _ => rfl, fun hf => ⟨hf, rfl⟩⟩
    · exact ⟨rfl, rfl, rfl, rfl, rfl, by simp, by simp [running]⟩
  · intro s t h
    obtain rfl : respond (statusByte s) s = t := by simpa [exec, execStat] using h
    exact ⟨rfl, rfl⟩

/-- Settles O31: INIT writes no fault, ABS writes either the datapath or the fault according to its
operand, and a faulted engine only answers. -/
theorem frameOfTheAccumulateCommands : Obligations.FrameOfTheAccumulateCommands := by
  refine ⟨fun s t h => ?_, fun v s t h => ?_, fun i s t hf h => ?_⟩
  · rcases whenRunning_cases h with ⟨-, rfl⟩ | ⟨-, rfl⟩ <;> exact ⟨rfl, rfl, rfl, rfl⟩
  · refine ⟨exec_keeps_params h, (exec_effect h).keeps_input, fun hv => ?_, fun hv => ?_⟩
    · rcases exec_abs_cases_of_digit hv h with rfl | rfl <;> exact ⟨rfl, rfl⟩
    · rcases exec_abs_cases_of_no_digit hv h with rfl | rfl <;> exact ⟨rfl, rfl, rfl⟩
  · exact (exec_effect h).sameEngine_of_faulted hf

/-- Settles O39, by induction on the sequence: the loop's accumulator is a left factor of the product
of the digits still to come. -/
theorem foldIsTheProductOfPermutedDigits : Obligations.FoldIsTheProductOfPermutedDigits :=
  fun _ q g => fold_eq_permutedProduct g q

/-- Settles O42: the check digit enters as the left factor of the number's product, and only the
product's inverse makes that 0. -/
theorem checkDigitIsUnique : Obligations.CheckDigitIsUnique := by
  intro t b g laws
  calc validate t { first := g, rest := b } = .valid
      ↔ readD t g (permutedProduct t 1#3 b) = 0 := by
        rw [validate_eq_valid, fold_eq_readD_first laws]
    _ ↔ g = readInv t (permutedProduct t 1#3 b) := readD_eq_zero_iff_left laws
    _ ↔ g = computeCheckDigit t b := by rw [computeCheckDigit_eq_readInv laws]

/-- Settles O48: the group laws and the anti-symmetry by reading the cells, the source's invariants of
`D` and `INV` from the group laws. -/
theorem standardTablesSatisfyTheInvariants : Obligations.StandardTablesSatisfyTheInvariants :=
  ⟨standardTables_wellFormed, standardTables_groupLaws, standardTables_antiSymmetric, rfl, rfl⟩

/-- Settles O49: the blocks of `D` and the rows of `NUM` by reading the cells; that `INV` is the only
right inverse holds in every group. -/
theorem standardTablesHaveTheirClosedForms : Obligations.StandardTablesHaveTheirClosedForms :=
  ⟨by decide, fun _ _ => (readD_eq_zero_iff_right standardTables_groupLaws).mp, by decide⟩

end

section
/-!
PROOFS. The statements of spec/30_encoding.md. First decoder and encoder as inverses (R85, R86), from
which the rows of the opcode map and the reserved words (R87) follow; then the responses of a word
and of a whole input (R81, R82), the command streams (R91) as runs, and the text of a command (R90).
-/

namespace Sys2Proof

/-! ### Decoding and encoding -/

/-- The engine has every command it decodes a word to (R86(3)). -/
theorem wf_of_decode {hw : Bool} {w : Byte} {i : Instr} (h : decode hw w = .instr i) :
    i.wf hw = true := by
  obtain rfl := encode_of_decode h
  cases i with
  | init | abs | rdc | stat => rfl
  | gen | val => exact (wrapped_eq_instr.mp h).1

theorem decode_encode {hw : Bool} {i : Instr} (h : i.wf hw = true) :
    decode hw (encode i) = .instr i := by
  cases i with
  | init | rdc | stat => rfl
  | abs v => simp [encode, decode_of_opField_one]
  | gen | val => exact wrapped_eq_instr.mpr ⟨h, rfl⟩

/-- With the wrapper the engine has every command (R7). -/
@[simp] theorem wf_true (i : Instr) : i.wf true = true := by cases i <;> rfl

/-! ### The rows of the opcode map -/

/-- A command's word selects the command's row (R85). -/
theorem selects_encode (i : Instr) : (opcodeRow i).selects (encode i) = true := by
  cases i with
  | init => exact Laws.RowMatch.init
  | abs v => exact Laws.RowMatch.abs v
  | rdc => exact Laws.RowMatch.rdc
  | gen => exact Laws.RowMatch.gen
  | val => exact Laws.RowMatch.val
  | stat => exact Laws.RowMatch.stat

/-- A row with the full mask selects its pattern alone. -/
theorem selects_full_mask {p w : Byte} : (OpcodeRow.mk p 0xFF#8).selects w = true ↔ w = p := by
  have full : w &&& 0xFF#8 = w := BitVec.and_allOnes
  simp [OpcodeRow.selects, full]

/-- The row of ABS selects the words with `OP = 0x1`. -/
theorem selects_abs_row {w : Byte} :
    (OpcodeRow.mk 0x10#8 0xF0#8).selects w = true ↔ opField w = 0x1#4 := by
  revert w; decide

/-- A command is ABS, or its row fixes all eight bits (R85). -/
theorem abs_or_fullMask (i : Instr) :
    (∃ v, i = .abs v) ∨ opcodeRow i = ⟨encode i, 0xFF#8⟩ := by
  cases i with
  | abs v => exact .inl ⟨v, rfl⟩
  | init | rdc | gen | val | stat => exact .inr rfl

/-- A word that selects a command's row is the word of a command with that row. -/
theorem encode_of_selects {i : Instr} {w : Byte} (h : (opcodeRow i).selects w = true) :
    ∃ j, encode j = w ∧ opcodeRow j = opcodeRow i := by
  rcases abs_or_fullMask i with ⟨v, rfl⟩ | hrow
  · exact ⟨_, encode_of_decode (decode_of_opField_one true (selects_abs_row.mp h)), rfl⟩
  · rw [hrow] at h
    exact ⟨i, (selects_full_mask.mp h).symm, rfl⟩

theorem selects_iff_decode {i : Instr} {w : Byte} : (opcodeRow i).selects w = true ↔
    ∃ j, decode true w = .instr j ∧ opcodeRow j = opcodeRow i := by
  constructor
  · intro h
    obtain ⟨j, rfl, hrow⟩ := encode_of_selects h
    exact ⟨j, decode_encode (wf_true j), hrow⟩
  · rintro ⟨j, hj, hrow⟩
    rw [← hrow, ← encode_of_decode hj]
    exact selects_encode j

/-! ### Reserved words -/

/-- The three classes of reserved words on the bits of the word (R87(a), (b), (c)). -/
def ReservedWord (hw : Bool) (w : Byte) : Prop :=
  6 ≤ (opField w).toNat ∨ ((opField w).toNat ∈ [0, 2, 3, 4, 5] ∧ argField w ≠ 0#4) ∨
    (hw = false ∧ (w = 0x30#8 ∨ w = 0x40#8))

/-- No command the engine has is encoded by a reserved word. -/
theorem not_reservedWord_encode {hw : Bool} {i : Instr} (h : i.wf hw = true) :
    ¬ ReservedWord hw (encode i) := by
  cases i with
  | init | rdc | stat => simp [ReservedWord, encode, opField, argField]
  | gen | val =>
    have present : hw = true := h
    simp [ReservedWord, encode, opField, argField, present]
  | abs v =>
    have other {w : Byte} (hop : opField w ≠ 0x1#4) : 0x1#4 ++ v ≠ w := by
      rintro rfl
      exact hop (opField_abs v)
    simp [ReservedWord, encode, other (w := 0x30#8) (by decide), other (w := 0x40#8) (by decide)]

/-- A reserved word decodes to no command (R86(4), R87). -/
theorem decode_of_reservedWord {hw : Bool} {w : Byte} (h : ReservedWord hw w) :
    ∃ r, decode hw w = .reserved r := by
  cases hd : decode hw w with
  | reserved r => exact ⟨r, rfl⟩
  | instr i =>
    rw [← encode_of_decode hd] at h
    exact absurd h (not_reservedWord_encode (wf_of_decode hd))

namespace Machine

variable {s t : State} {w : Byte}

theorem execWord_of_reservedWord (hw : ReservedWord s.params.hasWrapper w) (hf : s.fault = false) :
    execWord w s = .next (raise .illegalCommand s) := by
  obtain ⟨r, hr⟩ := decode_of_reservedWord hw
  calc execWord w s = execReserved s := by simp only [execWord, hr]
    _ = .next (raise .illegalCommand s) := whenRunning_running hf

/-! ### One response for each command -/

theorem WordEffect.appends_response (h : WordEffect w s t) :
    ∃ r, t.responses = s.responses ++ [r] := by
  cases h <;> exact ⟨_, rfl⟩

/-- A step gives one response if it serves a command and none if it serves a reset (R82, R210). -/
theorem step_responses_length {e : HostInput} {rest : List HostInput} (h : step s = .next t)
    (hi : s.input = e :: rest) :
    t.responses.length = s.responses.length + ([e].filter fun e => e != .reset).length := by
  rcases step_effect h with ⟨hwait, -⟩ | ⟨_, hreset, rfl⟩ | ⟨w, _, hcommand, effect⟩
  · simp [hi] at hwait
  · obtain ⟨rfl, -⟩ := List.cons.inj (hi.symm.trans hreset)
    simp
  · obtain ⟨rfl, -⟩ := List.cons.inj (hi.symm.trans hcommand)
    obtain ⟨r, hr⟩ := effect.appends_response
    simp [hr]

theorem run_serves_input (s : State) : ∃ t, run s.input.length s = .next t ∧ t.input = [] ∧
    t.responses.length = s.responses.length + (s.input.filter fun e => e != .reset).length := by
  induction hi : s.input generalizing s with
  | nil => exact ⟨s, rfl, hi, by simp⟩
  | cons e rest ih =>
    obtain ⟨u, hu⟩ := step_next s
    obtain ⟨t, ht, hdone, hcount⟩ := ih u (by rw [step_input hu, hi, List.tail_cons])
    refine ⟨t, (run_succ hu).trans ht, hdone, ?_⟩
    rw [hcount, step_responses_length hu hi, Nat.add_assoc, ← List.length_append,
      ← List.filter_append, List.singleton_append]

/-! ### The response format -/

/-- What R81 says of the response `r` to the word `w`, `t` being the state after it. -/
structure ResponseFormat (w : Byte) (t : State) (r : Byte) : Prop where
  fault_bit : r.getLsbD 7 = t.fault
  cause_bits : r.extractLsb' 5 2 = t.cause
  data : w ≠ 0x50#8 → r.getLsbD 4 = false ∧ (t.fault = true → r.extractLsb' 0 4 = 0xF#4) ∧
    (t.fault = false → (r.extractLsb' 0 4).toNat < 10)

theorem responseFormat_faultByte (hf : t.fault = true) :
    ResponseFormat w t (faultByte t.cause) := by
  have fields : ∀ c : BitVec 2, (faultByte c).getLsbD 7 = true ∧
      (faultByte c).extractLsb' 5 2 = c ∧ (faultByte c).getLsbD 4 = false ∧
      (faultByte c).extractLsb' 0 4 = 0xF#4 := by decide
  obtain ⟨hfault, hcause, hbit, hdata⟩ := fields t.cause
  exact ⟨hfault.trans hf.symm, hcause, fun _ => ⟨hbit, fun _ => hdata, by simp [hf]⟩⟩

theorem responseFormat_dataByte {x : Nibble} (hx : x.toNat < 10) (hf : t.fault = false)
    (hc : t.cause = 0#2) : ResponseFormat w t (dataByte x) := by
  have fields : ∀ x : Nibble, (dataByte x).getLsbD 7 = false ∧
      (dataByte x).extractLsb' 5 2 = 0#2 ∧ (dataByte x).getLsbD 4 = false ∧
      (dataByte x).extractLsb' 0 4 = x := by decide
  obtain ⟨hfault, hcause, hbit, hdata⟩ := fields x
  exact ⟨hfault.trans hf.symm, hcause.trans hc.symm,
    fun _ => ⟨hbit, by simp [hf], fun _ => by rwa [hdata]⟩⟩

theorem responseFormat_statusByte (s : State) : ResponseFormat 0x50#8 s (statusByte s) := by
  have fields : ∀ (f n w : Bool) (c : BitVec 2) (p : BitVec 3),
      (flagBit f ++ c ++ flagBit n ++ flagBit w ++ p).getLsbD 7 = f ∧
      (flagBit f ++ c ++ flagBit n ++ flagBit w ++ p).extractLsb' 5 2 = c := by decide
  obtain ⟨hfault, hcause⟩ := fields s.fault s.ne s.params.hasWrapper s.cause s.pos
  exact ⟨hfault, hcause, fun h => absurd rfl h⟩

/-- Every command answers in the format; the invariant gives the CAUSE of a running engine (log 9). -/
theorem exec_responseFormat {i : Instr} (h : exec i s = .next t) (hs : s.Inv) :
    ∃ r, t.responses = s.responses ++ [r] ∧ ResponseFormat (encode i) t r := by
  obtain ⟨hcause, -⟩ := hs
  rcases exec_cases h with ⟨rfl, rfl⟩ | ⟨-, hf, rfl⟩ | ⟨-, k, -, rfl⟩ | ⟨hf, -, rfl⟩ |
    ⟨hf, d, -, rfl⟩ | ⟨hf, -, x, hx, rfl⟩
  · exact ⟨_, rfl, responseFormat_statusByte _⟩
  · exact ⟨_, rfl, responseFormat_faultByte hf⟩
  · exact ⟨_, rfl, responseFormat_faultByte rfl⟩
  · exact ⟨_, rfl, responseFormat_dataByte (x := ackBits) (by decide) hf (hcause.mp hf)⟩
  · exact ⟨_, rfl, responseFormat_dataByte (x := ackBits) (by decide) hf (hcause.mp hf)⟩
  · exact ⟨_, rfl, responseFormat_dataByte (resultData_lt hx) hf (hcause.mp hf)⟩

theorem execWord_responseFormat (h : execWord w s = .next t) (hs : s.Inv) :
    ∃ r, t.responses = s.responses ++ [r] ∧ ResponseFormat w t r := by
  rcases execWord_cases h with ⟨i, hi, hexec⟩ | ⟨_, -, hreserved⟩
  · rw [← encode_of_decode hi]
    exact exec_responseFormat hexec hs
  · rcases execReserved_cases hreserved with ⟨hf, rfl⟩ | ⟨-, rfl⟩
    · exact ⟨_, rfl, responseFormat_faultByte hf⟩
    · exact ⟨_, rfl, responseFormat_faultByte rfl⟩

/-! ### Command streams as runs -/

/-- A presented command that the engine has is executed as that command. -/
theorem step_of_encode {i : Instr} {rest : List HostInput} (hwf : i.wf s.params.hasWrapper = true)
    (hi : s.input = .command (encode i) :: rest) : step s = exec i (takeInput rest s) :=
  stepRunsTheDecodedCommand s _ rest i hi (decode_encode hwf)

theorem exec_init_running (hf : s.fault = false) :
    exec .init s = .next (respond 0x00#8 (startSequence s)) :=
  whenRunning_running hf

theorem exec_abs_digitBits_running (d : Digit) (hf : s.fault = false) :
    exec (.abs (digitBits d)) s = .next (respond 0x00#8 (absorb d s)) := by
  simp [exec, execAbs, whenRunning_running hf]

/-- A result command of a running engine with a digit absorbed answers its result (R120 to R122). -/
theorem exec_of_resultData {i : Instr} {x : Nibble} (hx : resultData s i = some x)
    (hf : s.fault = false) (hn : s.ne = true) : exec i s = .next (respond (dataByte x) s) := by
  cases i with
  | init | abs | stat => simp [resultData] at hx
  | rdc =>
    obtain rfl : digitBits s.acc = x := by simpa [resultData] using hx
    simp [exec, execRdc, whenRunning_running hf, whenNonEmpty_nonEmpty hn]
  | gen =>
    obtain ⟨hw, rfl⟩ : s.params.hasWrapper = true ∧ _ = x := by simpa [resultData] using hx
    simp [exec, execGen, whenRunning_running hf, whenWrapper_present hw, whenNonEmpty_nonEmpty hn]
  | val =>
    obtain ⟨hw, rfl⟩ : s.params.hasWrapper = true ∧ _ = x := by simpa [resultData] using hx
    simp [exec, execVal, whenRunning_running hf, whenWrapper_present hw, whenNonEmpty_nonEmpty hn]

/-- The state after the ABS commands of the digits `ds` have been served and `later` is left (R101,
R104): the fold's loop, with one acknowledgement per digit. -/
def absorbAll (ds : List Digit) (later : List HostInput) (s : State) : State :=
  { s with
    acc := foldFrom s.params.tables s.acc s.pos ds
    pos := s.pos + BitVec.ofNat 3 ds.length
    ne := s.ne || !ds.isEmpty
    input := later
    responses := s.responses ++ List.replicate ds.length 0x00#8 }

theorem absorbAll_nil (later : List HostInput) (s : State) :
    absorbAll [] later s = takeInput later s := by
  simp [absorbAll, takeInput]

theorem absorbAll_cons (d : Digit) (ds : List Digit) (rest later : List HostInput) (s : State) :
    absorbAll ds later (respond 0x00#8 (absorb d (takeInput rest s))) =
      absorbAll (d :: ds) later s := by
  have position :
      s.pos + 1#3 + BitVec.ofNat 3 ds.length = s.pos + BitVec.ofNat 3 (ds.length + 1) := by
    rw [BitVec.ofNat_add]
    ac_rfl
  simp [absorbAll, respond, absorb, takeInput, position, List.replicate_succ]

/-- A running engine absorbs a stream of digits (R101, R104). -/
theorem run_seqStream (ds : List Digit) (later : List HostInput) (hf : s.fault = false)
    (hi : s.input = commands (seqStream (ds.map digitBits)) ++ later) :
    run ds.length s = .next (absorbAll ds later s) := by
  induction ds generalizing s with
  | nil =>
    obtain rfl : s.input = later := hi
    rw [absorbAll_nil]
    rfl
  | cons d ds ih =>
    have first := (step_of_encode (i := .abs (digitBits d)) rfl hi).trans
      (exec_abs_digitBits_running d hf)
    calc run (ds.length + 1) s
        = run ds.length (respond 0x00#8 (absorb d (takeInput _ s))) := run_succ first
      _ = .next (absorbAll ds later (respond 0x00#8 (absorb d (takeInput _ s)))) := ih hf rfl
      _ = .next (absorbAll (d :: ds) later s) := by rw [absorbAll_cons]

/-- The state after INIT and the ABS commands of a sequence (R104). -/
def afterSequence (q : DigitSeq) (later : List HostInput) (s : State) : State :=
  absorbAll q.toList later (respond 0x00#8 (startSequence s))

section
variable (q : DigitSeq) (later : List HostInput) (s : State)

@[simp] theorem afterSequence_params : (afterSequence q later s).params = s.params := rfl
@[simp] theorem afterSequence_acc :
    (afterSequence q later s).acc = fold s.params.tables q := rfl
@[simp] theorem afterSequence_ne : (afterSequence q later s).ne = true := rfl
@[simp] theorem afterSequence_fault : (afterSequence q later s).fault = s.fault := rfl
@[simp] theorem afterSequence_input : (afterSequence q later s).input = later := rfl
@[simp] theorem afterSequence_responses : (afterSequence q later s).responses =
    s.responses ++ List.replicate (q.toList.length + 1) 0x00#8 := by
  simp [afterSequence, absorbAll, List.replicate_succ]

end

theorem run_init_seqStream (q : DigitSeq) (later : List HostInput) (hf : s.fault = false)
    (hi : s.input = commands (.init :: seqStream q.operands) ++ later) :
    run (q.toList.length + 1) s = .next (afterSequence q later s) := by
  have first := (step_of_encode (i := .init) rfl hi).trans (exec_init_running hf)
  exact (run_succ first).trans (run_seqStream q.toList later hf rfl)

/-- An invocation (R91): INIT, the digits, and one result command `i`, which answers `x`. -/
theorem run_invocation {i : Instr} {x : Nibble} (q : DigitSeq) (later : List HostInput)
    (hf : s.fault = false) (hwf : i.wf s.params.hasWrapper = true)
    (hx : resultData (afterSequence q later s) i = some x) : ∃ t,
    run (q.toList.length + 2)
        { s with input := commands (.init :: (seqStream q.operands ++ [i])) ++ later } = .next t ∧
    t.responses = s.responses ++ List.replicate (q.toList.length + 1) 0x00#8 ++ [dataByte x] ∧
    t.fault = false ∧ t.input = later := by
  have split : commands (.init :: (seqStream q.operands ++ [i])) ++ later =
      commands (.init :: seqStream q.operands) ++ (.command (encode i) :: later) := by
    simp [commands]
  have digits := run_init_seqStream (s := { s with input := commands _ ++ later }) q _ hf split
  have served : step (afterSequence q (.command (encode i) :: later) s) =
      exec i (afterSequence q later s) := step_of_encode hwf rfl
  have answered := served.trans (exec_of_resultData hx hf rfl)
  refine ⟨_, (run_add 1 digits).trans (run_succ answered), ?_, hf, rfl⟩
  rw [respond_responses, afterSequence_responses]

/-! ### The text of a command -/

/-- Characters other than the space go on with the word begun. -/
theorem splitWords_append {cs : List Char} (h : ∀ c ∈ cs, c ≠ ' ') (word rest : List Char) :
    splitWords word (cs ++ rest) = splitWords (word ++ cs) rest := by
  induction cs generalizing word with
  | nil => simp
  | cons c cs ih =>
    have hc : c ≠ ' ' := h c List.mem_cons_self
    have hcs : ∀ d ∈ cs, d ≠ ' ' := fun d hd => h d (List.mem_cons_of_mem c hd)
    simp [splitWords, hc, ih hcs]

/-- A space ends the word begun. -/
theorem splitWords_space {word : List Char} (h : word ≠ []) (rest : List Char) :
    splitWords word (' ' :: rest) = word :: splitWords [] rest := by
  simp [splitWords, h]

section
variable {word : List Char} (hword : ∀ c ∈ word, c ≠ ' ') (hne : word ≠ [])
include hword hne

/-- A word at the end of its line, also with the space behind it that a comment leaves. -/
theorem splitWords_last {trail : List Char} (htrail : trail = [] ∨ trail = [' ']) :
    splitWords [] (word ++ trail) = [word] := by
  rw [splitWords_append hword, List.nil_append]
  rcases htrail with rfl | rfl
  · simp [splitWords, hne]
  · exact splitWords_space hne []

theorem splitWords_first (rest : List Char) :
    splitWords [] (word ++ ' ' :: rest) = word :: splitWords [] rest := by
  rw [splitWords_append hword, List.nil_append, splitWords_space hne]

end

theorem mnemonic_ne_nil (i : Instr) : mnemonic i ≠ [] := by cases i <;> simp [mnemonic]

theorem mnemonic_clean (i : Instr) : ∀ c ∈ mnemonic i, c ≠ ' ' ∧ c ≠ ';' := by
  cases i <;> simp [mnemonic]

theorem operandText_ne_nil (v : Nibble) : operandText v ≠ [] := by
  unfold operandText
  split <;> simp

theorem operandText_clean (v : Nibble) : ∀ c ∈ operandText v, c ≠ ' ' ∧ c ≠ ';' := by
  have digits : ∀ v : Nibble, (operandText v).all Char.isDigit = true := by decide
  intro c hc
  have hdigit := List.all_eq_true.mp (digits v) c hc
  constructor <;> rintro rfl <;> simp at hdigit

theorem parseOperand_operandText (v : Nibble) : parseOperand (operandText v) = some v := by
  revert v; decide

/-- A command is ABS, or its text is a mnemonic that names it (R90). -/
theorem abs_or_plainCommand (i : Instr) : (∃ v, i = .abs v) ∨
    (commandText i = mnemonic i ∧ plainCommand (mnemonic i) = some i) := by
  cases i with
  | abs v => exact .inl ⟨v, rfl⟩
  | init | rdc | gen | val | stat => exact .inr ⟨rfl, rfl⟩

/-- A command's text holds no comment. -/
theorem commandText_clean (i : Instr) : ∀ c ∈ commandText i, c ≠ ';' := by
  intro c hc
  rcases abs_or_plainCommand i with ⟨v, rfl⟩ | ⟨htext, -⟩
  · obtain hmnemonic | rfl | hoperand :
        c ∈ mnemonic (.abs v) ∨ c = ' ' ∨ c ∈ operandText v := by simpa [commandText] using hc
    · exact (mnemonic_clean _ c hmnemonic).2
    · decide
    · exact (operandText_clean v c hoperand).2
  · rw [htext] at hc
    exact (mnemonic_clean i c hc).2

theorem assembleWords_abs (v : Nibble) :
    assembleWords (mnemonic (.abs v)) [operandText v] = some [encode (.abs v)] := by
  have hplain : plainCommand (mnemonic (.abs v)) = none := rfl
  have hword : mnemonic (.abs v) ≠ ['.', 'w', 'o', 'r', 'd'] := by simp [mnemonic]
  have habs : mnemonic (.abs v) = mnemonic (.abs 0#4) := rfl
  simp only [assembleWords, hplain, if_neg hword, if_pos habs, parseOperand_operandText,
    Option.map_some]

/-- A line that is a command's text but for its comment assembles to the command's word (R90). -/
theorem assembleLine_of_stripComment {line trail : List Char} {i : Instr}
    (hline : stripComment line = commandText i ++ trail) (htrail : trail = [] ∨ trail = [' ']) :
    assembleLine line = some [encode i] := by
  have hmnemonic : ∀ c ∈ mnemonic i, c ≠ ' ' := fun c hc => (mnemonic_clean i c hc).1
  rcases abs_or_plainCommand i with ⟨v, rfl⟩ | ⟨htext, hplain⟩
  · have hoperand : ∀ c ∈ operandText v, c ≠ ' ' := fun c hc => (operandText_clean v c hc).1
    have hsplit : splitWords [] (stripComment line) = [mnemonic (.abs v), operandText v] := by
      rw [hline, commandText, List.append_assoc, List.cons_append,
        splitWords_first hmnemonic (mnemonic_ne_nil _),
        splitWords_last hoperand (operandText_ne_nil v) htrail]
    simp only [assembleLine, hsplit, assembleWords_abs]
  · have hsplit : splitWords [] (stripComment line) = [mnemonic i] := by
      rw [hline, htext, splitWords_last hmnemonic (mnemonic_ne_nil i) htrail]
    simp only [assembleLine, hsplit, assembleWords, hplain]

end Machine

end Sys2Proof

open Sys2Proof Sys2Proof.Machine

/-- Settles O15: only the command's own word decodes to it, and it does on an engine that has the
command. -/
theorem decodeAndEncodeAgree : Obligations.DecodeAndEncodeAgree := by
  intro hw w i
  constructor
  · exact fun h => ⟨wf_of_decode h, encode_of_decode h⟩
  · rintro ⟨hwf, rfl⟩
    exact decode_encode hwf

/-- Settles O13: a reserved word is the encoding of no command, so it decodes to none. -/
theorem reservedWordsRaiseIllegalCommand : Obligations.ReservedWordsRaiseIllegalCommand := by
  intro s w rest hf hreserved
  exact (step_of_command rfl).trans
    (execWord_of_reservedWord (s := { s with input := rest }) hreserved hf)

/-- Settles O16: a row selects the words of its commands and no others, and a word has one command. -/
theorem opcodeMapRowsSelectTheirCommands : Obligations.OpcodeMapRowsSelectTheirCommands := by
  refine ⟨fun i j w hi hj => ?_, fun i w => selects_iff_decode⟩
  obtain ⟨k, hk, hki⟩ := selects_iff_decode.mp hi
  obtain ⟨l, hl, hlj⟩ := selects_iff_decode.mp hj
  obtain rfl : k = l := Decoded.instr.inj (hk.symm.trans hl)
  exact hki.symm.trans hlj

/-- Settles O21: each effect a word can have comes with one response. -/
theorem everyCommandGetsOneResponse : Obligations.EveryCommandGetsOneResponse := by
  intro s w rest
  obtain ⟨t, ht, effect⟩ := step_command_effect s w rest
  obtain ⟨r, hr⟩ := effect.appends_response
  exact ⟨t, r, ht, hr, effect.keeps_input⟩

/-- Settles O22, by induction on the events presented. -/
theorem everyPresentedCommandIsAnswered : Obligations.EveryPresentedCommandIsAnswered :=
  run_serves_input

/-- Settles O23: the fault byte, the status byte and the data byte of a running engine each have the
format; the invariant makes CAUSE 0 there. -/
theorem responsesCarryFaultAndCause : Obligations.ResponsesCarryFaultAndCause := by
  intro s w rest hs
  obtain ⟨t, ht⟩ := execWord_next w { s with input := rest }
  obtain ⟨r, hr, format⟩ := execWord_responseFormat ht hs
  exact ⟨t, r, (step_of_command rfl).trans ht, hr, format.fault_bit, format.cause_bits,
    format.data⟩

/-- Settles O35: a FOLD stream is the invocation that ends in RDC. -/
theorem foldStreamAnswersTheFold : Obligations.FoldStreamAnswersTheFold := by
  intro s q later hf
  exact run_invocation q later hf rfl rfl

/-- Settles O36: a COMPUTE stream is the invocation over the placeholder and the number's digits that
ends in GEN. -/
theorem computeStreamAnswersTheCheckDigit : Obligations.ComputeStreamAnswersTheCheckDigit := by
  intro s b later hf hw
  exact run_invocation { first := 0, rest := b } later hf hw (if_pos hw)

/-- Settles O37: a VALIDATE stream is the invocation that ends in VAL. -/
theorem validateStreamAnswersTheVerdict : Obligations.ValidateStreamAnswersTheVerdict := by
  intro s q later hf hw
  obtain ⟨t, ht, hr, hend⟩ := run_invocation (i := .val) q later hf hw
    (x := (validate s.params.tables q).bits) (if_pos hw)
  refine ⟨t, ht, ?_, hend⟩
  rw [hr]
  cases validate s.params.tables q <;> rfl

/-- Settles O56: the text of a command splits into its mnemonic and the operand of ABS, and a comment
leaves one space behind them. -/
theorem assemblingACommandGivesItsWord : Obligations.AssemblingACommandGivesItsWord := by
  intro i comment
  have clean := commandText_clean i
  constructor
  · have alone : stripComment (commandText i) = commandText i ++ [] := by
      rw [stripComment_of_clean clean, List.append_nil]
    exact assembleLine_of_stripComment alone (.inl rfl)
  · have clean_space : ∀ c ∈ commandText i ++ [' '], c ≠ ';' := by
      simpa [or_imp, forall_and] using clean
    have commented :
        stripComment (commandText i ++ ' ' :: ';' :: comment) = commandText i ++ [' '] := by
      simpa using stripComment_append clean_space comment
    exact assembleLine_of_stripComment commented (.inr rfl)

/-- Settles O17, by decoding each word. -/
theorem writtenOutWordsDecode : Obligations.WrittenOutWordsDecode := by
  exact ⟨rfl, rfl, rfl, rfl, rfl, rfl, rfl, rfl, rfl, rfl⟩

/-- Settles O18, by counting over the 256 words. -/
theorem definedAndReservedWordCounts : Obligations.DefinedAndReservedWordCounts := by
  exact ⟨rfl, rfl, rfl, rfl, rfl, rfl⟩

/-- Settles O57: INIT and the result command are the two more. -/
theorem invocationsHaveTwoCommandsMoreThanDigits :
    Obligations.InvocationsHaveTwoCommandsMoreThanDigits := by
  intro q b
  simp [commands, foldStream, validateStream, computeStream, seqStream, DigitSeq.operands]

end

section
/-!
PROOFS. The statements of spec/40_accumulate.md. First the words with the fields `{OP, ARG}` (R80), then
ABS on a running engine (R101) and at the start of a sequence (R58), then the registers that a sequence
of digits leaves (R104, R216); the runs themselves are the command streams of spec/30_encoding.md.
-/

namespace Sys2Proof

/-! ### The fields of a word -/

@[simp] theorem opField_append (op arg : Nibble) : opField (op ++ arg) = op :=
  BitVec.extractLsb'_append_eq_left

@[simp] theorem argField_append (op arg : Nibble) : argField (op ++ arg) = arg :=
  BitVec.extractLsb'_append_eq_right

/-- A command without operand has no word with a non-zero `ARG` (R87(b)). -/
theorem reservedWord_of_arg_ne_zero {op arg : Nibble} (hw : Bool)
    (hop : op.toNat ∈ [0, 2, 3, 4, 5]) (harg : arg ≠ 0#4) : ReservedWord hw (op ++ arg) :=
  .inr (.inl ⟨by rwa [opField_append], by rwa [argField_append]⟩)

/-- The words of ABS stand at 0x10 and above, in the order of the operand (R85). -/
theorem encode_abs_eq_add (v : Nibble) : encode (.abs v) = 0x10#8 + v.setWidth 8 := by
  revert v; decide

namespace Machine

variable {s : State}

/-! ### ABS on a running engine -/

theorem exec_abs_running_of_digit {v : Nibble} (hv : v.toNat < 10) (hf : s.fault = false) :
    exec (.abs v) s = .next (respond 0x00#8 (absorb ⟨v.toNat, hv⟩ s)) := by
  simp [exec, execAbs, whenRunning_running hf, digitOperand_of_lt hv]

/-- The range check faults before the tables are read (R101, R182). -/
theorem exec_abs_running_of_no_digit {v : Nibble} (hv : 10 ≤ v.toNat) (hf : s.fault = false) :
    exec (.abs v) s = .next (raise .digitRange s) := by
  simp [exec, execAbs, whenRunning_running hf, digitOperand_of_ge hv]

/-- The next position, counted modulo 8 (R23). -/
theorem pos_add_one (p : BitVec 3) : p + 1#3 = BitVec.ofNat 3 ((p.toNat + 1) % 8) := by
  revert p; decide

/-- At the start of a sequence a digit is absorbed as itself: row 0 of `NUM` and the left factor 0 of
`D` change nothing (R58(b), R58(d), R101). -/
theorem absorb_acc_of_start (g : s.params.tables.GroupLaws) (hacc : s.acc = 0)
    (hpos : s.pos = 0#3) (d : Digit) : (absorb d s).acc = d := by
  obtain ⟨-, ident, -, rowZero⟩ := g
  rw [absorb_acc, hacc, hpos, rowZero, (ident d).1]

/-! ### The registers after a sequence -/

/-- A sequence is not empty, so NE is set (R12, R25). -/
theorem absorbAll_toList_ne (q : DigitSeq) (later : List HostInput) (s : State) :
    (absorbAll q.toList later s).ne = true := Bool.or_true s.ne

/-- INIT puts POS to 0, so after the sequence it is the length modulo 8 (R23, R104). -/
theorem afterSequence_pos (q : DigitSeq) (later : List HostInput) (s : State) :
    (afterSequence q later s).pos = BitVec.ofNat 3 (q.toList.length % 8) := by
  have reduce (n : Nat) : BitVec.ofNat 3 (n % 8) = BitVec.ofNat 3 n :=
    BitVec.eq_of_toNat_eq (by simp)
  calc (afterSequence q later s).pos = 0#3 + BitVec.ofNat 3 q.toList.length := rfl
    _ = BitVec.ofNat 3 (q.toList.length % 8) := by rw [BitVec.zero_add, reduce]

end Machine

end Sys2Proof

open Sys2Proof Sys2Proof.Machine

/-- Settles O33: INIT starts the fold's loop at ACC = 0 and POS = 0, and each digit, by induction on the
sequence (`run_seqStream`), is one turn of it. -/
theorem engineComputesTheFold : Obligations.EngineComputesTheFold := by
  intro s q later hf
  calc run (q.toList.length + 1) { s with input := commands _ ++ later }
      = .next (afterSequence q later { s with input := _ }) := run_init_seqStream q later hf rfl
    _ = _ := by rw [← afterSequence_pos q later s, ← afterSequence_responses q later s]; rfl

/-- Settles O6: the operand's range decides between one turn of the fold and DigitRange. -/
theorem absAbsorbsOneDigit : Obligations.AbsAbsorbsOneDigit := by
  refine ⟨encode_abs_eq_add, fun hw v => ?_, fun s v hv hf => ?_, fun s v hf hv => ?_⟩
  · rw [← encode_abs_eq_add]
    exact decode_encode rfl
  · rw [← pos_add_one]
    exact exec_abs_running_of_digit hv hf
  · exact exec_abs_running_of_no_digit hv hf

/-- Settles O34: the loop's turns start at whatever ACC and POS the engine holds. -/
theorem withoutInitTheOldSequenceGoesOn : Obligations.WithoutInitTheOldSequenceGoesOn := by
  intro s q later hf
  calc run q.toList.length { s with input := commands _ ++ later }
      = .next (absorbAll q.toList later { s with input := _ }) :=
        run_seqStream q.toList later hf rfl
    _ = _ := by rw [← absorbAll_toList_ne q later s]; rfl

/-- Settles O5: INIT's own word executes it, and `OP = 0x0` with another `ARG` is reserved. -/
theorem initStartsAnInvocation : Obligations.InitStartsAnInvocation :=
  ⟨rfl, fun _ => rfl, fun _ hf => exec_init_running hf, fun s _ rest hf ha =>
    reservedWordsRaiseIllegalCommand s _ rest hf (reservedWord_of_arg_ne_zero _ (by decide) ha)⟩

/-- Settles O7: the cells `NUM[p][0]` by reading them, the neutral ABS 0 because the supplied tables
are lawful, and the wrap of POS on any tables. -/
theorem absZeroIsNeutralOnlyAtTheStart : Obligations.AbsZeroIsNeutralOnlyAtTheStart := by
  refine ⟨by decide, fun s htables hf hacc hpos => ?_, fun s d hf hpos => ?_⟩
  · have lawful : s.params.tables.GroupLaws := htables ▸ standardTables_groupLaws
    have neutral : (absorb 0 s).acc = s.acc :=
      (absorb_acc_of_start lawful hacc hpos 0).trans hacc.symm
    have moved : (absorb 0 s).pos = 1#3 := by rw [absorb_pos, hpos]; rfl
    calc exec (.abs 0#4) s = .next (respond 0x00#8 (absorb 0 s)) := exec_abs_digitBits_running 0 hf
      _ = _ := by rw [← neutral, ← moved]; rfl
  · have wraps : (absorb d s).pos = 0#3 := by rw [absorb_pos, hpos]; rfl
    exact ⟨_, exec_abs_digitBits_running d hf, wraps, hf, rfl⟩

end

section
/-!
PROOFS. The statements of spec/41_result.md. First the result commands on a running engine (R120 to
R122, R183, R184) and how their answers agree (R123); then a sequence with an RDC in its middle
(R156); last the run under a host that keeps the contract (R218) beside the run without its reading
commands (R124).
-/

namespace Sys2Proof.Machine

variable {s t u : State}

/-! ### Commands of a running engine -/

/-- The converse of the fault clause of `exec_cases`: each condition of R181 does fault. -/
theorem exec_of_raises {i : Instr} {k : FaultCause} (h : Raises s i k) (hf : s.fault = false) :
    exec i s = .next (raise k s) := by
  cases h with
  | digitRange hv => exact exec_abs_running_of_no_digit hv hf
  | emptyRdc hn => simp [exec, execRdc, whenRunning_running hf, whenNonEmpty_empty hn]
  | emptyGen hw hn =>
    simp [exec, execGen, whenRunning_running hf, whenWrapper_present hw, whenNonEmpty_empty hn]
  | emptyVal hw hn =>
    simp [exec, execVal, whenRunning_running hf, whenWrapper_present hw, whenNonEmpty_empty hn]
  | noGen hw => simp [exec, execGen, whenRunning_running hf, whenWrapper_absent hw]
  | noVal hw => simp [exec, execVal, whenRunning_running hf, whenWrapper_absent hw]

/-- A reading command that the contract allows only answers (R124, R140, R218). -/
theorem exec_of_allowed_read {i : Instr} (hread : isRead (encode i) = true)
    (hwf : i.wf s.params.hasWrapper = true) (hne : i = .stat ∨ s.ne = true)
    (hf : s.fault = false) : ∃ r, exec i s = .next (respond r s) := by
  have writes (hw : encode i = 0x00#8 ∨ opField (encode i) = 0x1#4) : False := by
    simp [WordEffect.isRead_eq_false_of_writing_word hw] at hread
  cases i with
  | init => exact (writes (.inl rfl)).elim
  | abs v => exact (writes (.inr (opField_abs v))).elim
  | stat => exact ⟨_, rfl⟩
  | rdc => exact ⟨_, exec_of_resultData rfl hf (by simpa using hne)⟩
  | gen | val => exact ⟨_, exec_of_resultData (if_pos hwf) hf (by simpa using hne)⟩

/-! ### The answers of the result commands (R123) -/

theorem dataByte_verdict (d : Digit) :
    dataByte (verdictOf d).bits = if d = 0 then 0x01#8 else 0x00#8 := by
  unfold verdictOf
  split <;> rfl

theorem dataByte_digitBits_eq_zero {d : Digit} : dataByte (digitBits d) = 0x00#8 ↔ d = 0 := by
  revert d; decide

/-- In a group only the identity has the identity as its inverse. -/
theorem readInv_eq_zero {t : Tables} (g : t.GroupLaws) {x : Digit} : readInv t x = 0 ↔ x = 0 := by
  have ⟨_, ident, _, _⟩ := g
  rw [eq_comm, ← readD_eq_zero_iff_right g, (ident x).2]

/-! ### A result read in the middle of a sequence (R156) -/

/-- The fold of a longer sequence goes on from the fold of the prefix (R151). -/
theorem foldFrom_fold (t : Tables) (q : DigitSeq) (more : List Digit) :
    foldFrom t (fold t q) (0#3 + BitVec.ofNat 3 q.toList.length) more =
      fold t { first := q.first, rest := q.rest ++ more } :=
  (foldFrom_append t 0 0#3 q.toList more).symm

/-- A run that leads up to an RDC goes on to its answer (R120). -/
theorem run_rdc {k : Nat} {later : List HostInput} (h : run k s = .next t)
    (hi : t.input = .command (encode .rdc) :: later) (hf : t.fault = false) (hn : t.ne = true) :
    run (k + 1) s = .next (respond (dataByte (digitBits t.acc)) (takeInput later t)) := by
  have answered := (step_of_encode rfl hi).trans (exec_of_resultData rfl hf hn)
  exact (run_add 1 h).trans (run_succ answered)

/-- A FOLD stream (R91) as one run, the state it ends in included. -/
theorem run_foldStream (q : DigitSeq) (later : List HostInput) (hf : s.fault = false)
    (hi : s.input = commands (foldStream q.operands) ++ later) :
    run (q.toList.length + 2) s =
      .next (respond (dataByte (digitBits (fold s.params.tables q)))
        (afterSequence q later s)) := by
  have split : s.input =
      commands (.init :: seqStream q.operands) ++ (.command (encode .rdc) :: later) := by
    simp [hi, commands, foldStream]
  exact run_rdc (run_init_seqStream q _ hf split) rfl hf rfl

/-- Digits and an RDC after a digit has been absorbed (R101, R120). -/
theorem run_seqStream_rdc (ds : List Digit) (later : List HostInput) (hf : s.fault = false)
    (hn : s.ne = true) (hi : s.input = commands (seqStream (ds.map digitBits) ++ [.rdc]) ++ later) :
    run (ds.length + 1) s =
      .next (respond (dataByte (digitBits (foldFrom s.params.tables s.acc s.pos ds)))
        (absorbAll ds later s)) := by
  have split : s.input =
      commands (seqStream (ds.map digitBits)) ++ (.command (encode .rdc) :: later) := by
    simp [hi, commands]
  exact run_rdc (run_seqStream ds _ hf split) rfl hf (by simp [absorbAll, hn])

/-! ### Runs under the contract (R218) -/

/-- What an event that the contract allows does to a running engine: reset (R210), INIT (R100) and
ABS with a digit (R101) write the registers, and a reading command only answers (R124, R140). -/
inductive AllowedEffect (s : State) : HostInput → State → Prop where
  | resets : AllowedEffect s .reset (applyReset s)
  | starts : AllowedEffect s (.command (encode .init)) (respond 0x00#8 (startSequence s))
  | absorbs (d : Digit) :
      AllowedEffect s (.command (encode (.abs (digitBits d)))) (respond 0x00#8 (absorb d s))
  | reads {w : Byte} (hread : isRead w = true) (r : Byte) :
      AllowedEffect s (.command w) (respond r s)

/-- Is the event anything else than a reading command? -/
def keptEvent : HostInput → Bool
  | .command w => !isRead w
  | .reset => true

namespace AllowedEffect

variable {e : HostInput}

theorem running (h : AllowedEffect s e t) (hf : s.fault = false) : t.fault = false := by
  cases h with
  | resets => rfl
  | starts | absorbs | reads => exact hf

theorem keeps_input (h : AllowedEffect s e t) : t.input = s.input := by
  cases h <;> rfl

/-- A reading command leaves the engine as it is (R124, R140). -/
theorem sameEngine_of_read (h : AllowedEffect s e t) (hkept : keptEvent e = false) :
    State.SameEngine s t := by
  cases h with
  | reads hread r => exact sameEngine_respond r s
  | resets | starts => simp [keptEvent, isRead, encode] at hkept
  | absorbs d =>
    have hread : isRead (encode (.abs (digitBits d))) = false :=
      WordEffect.isRead_eq_false_of_writing_word (.inr (opField_abs _))
    simp [keptEvent, hread] at hkept

/-- Any other allowed event takes a second running copy of the engine to the same engine: what it
writes depends on the parameters, ACC and POS alone (R100, R101, R210). -/
theorem step_sameEngine_of_kept {rest : List HostInput} (h : AllowedEffect s e t)
    (hkept : keptEvent e = true) (hsame : State.SameEngine s u) (hf : s.fault = false)
    (hi : u.input = e :: rest) : ∃ v, step u = .next v ∧ State.SameEngine t v := by
  obtain ⟨hparams, hacc, hpos, hne, hfault, hcause⟩ := hsame
  have hfu : u.fault = false := by rw [← hfault, hf]
  cases h with
  | resets => exact ⟨_, step_of_reset hi, hparams, rfl, rfl, rfl, rfl, rfl⟩
  | starts =>
    have answered := (step_of_encode (i := .init) rfl hi).trans (exec_init_running hfu)
    exact ⟨_, answered, hparams, rfl, rfl, rfl, hfault, hcause⟩
  | absorbs d =>
    have answered := (step_of_encode (i := .abs (digitBits d)) rfl hi).trans
      (exec_abs_digitBits_running d hfu)
    refine ⟨_, answered, hparams, ?_, ?_, rfl, hfault, hcause⟩
    · simp [hparams, hacc, hpos]
    · simp [hpos]
  | reads hread => simp [keptEvent, hread] at hkept

end AllowedEffect

/-- A command that keeps the contract has an allowed effect, and leaves a state from which the rest
of the events keeps it. -/
theorem exec_allowed {i : Instr} {es : List HostInput} (hf : s.fault = false)
    (hwf : i.wf s.params.hasWrapper = true)
    (hk : hostKeeps s.params.hasWrapper s.ne (.command (encode i) :: es) = true) : ∃ t,
    exec i s = .next t ∧ AllowedEffect s (.command (encode i)) t ∧
      hostKeeps t.params.hasWrapper t.ne es = true := by
  simp only [hostKeeps, decode_encode hwf] at hk
  cases i with
  | init => exact ⟨_, exec_init_running hf, .starts, hk⟩
  | abs v =>
    obtain ⟨hdigit, hk⟩ := Bool.and_eq_true_iff.mp hk
    obtain ⟨d, hd⟩ := Option.isSome_iff_exists.mp hdigit
    obtain rfl := digitOperand_eq_some.mp hd
    exact ⟨_, exec_abs_digitBits_running d hf, .absorbs d, by simpa using hk⟩
  | rdc | gen | val =>
    obtain ⟨hn, hk⟩ := Bool.and_eq_true_iff.mp hk
    obtain ⟨r, answered⟩ := exec_of_allowed_read rfl hwf (.inr hn) hf
    exact ⟨_, answered, .reads rfl r, hk⟩
  | stat => exact ⟨_, rfl, .reads rfl _, hk⟩

/-- A running engine stays running, with an allowed effect, when it serves the first event of a host
that keeps the contract (R218). -/
theorem step_allowed {e : HostInput} {rest : List HostInput} (hf : s.fault = false)
    (hi : s.input = e :: rest) (hk : hostKeeps s.params.hasWrapper s.ne (e :: rest) = true) : ∃ t,
    step s = .next t ∧ AllowedEffect (takeInput rest s) e t ∧
      hostKeeps t.params.hasWrapper t.ne rest = true := by
  cases e with
  | reset => exact ⟨_, step_of_reset hi, .resets, hk⟩
  | command w =>
    cases hd : decode s.params.hasWrapper w with
    | reserved r => simp [hostKeeps, hd] at hk
    | instr i =>
      have hwf := wf_of_decode hd
      obtain rfl := encode_of_decode hd
      rw [step_of_encode hwf hi]
      exact exec_allowed (s := takeInput rest s) hf hwf hk

/-- The run over events that keep the contract and the run over the kept ones alone end in the same
engine (R124): a reading command is a step of the first run and none of the second. -/
theorem run_filter_keptEvent (es : List HostInput) (hf : s.fault = false)
    (hk : hostKeeps s.params.hasWrapper s.ne es = true) (hi : s.input = es)
    (hsame : State.SameEngine s u) (hu : u.input = es.filter keptEvent) : ∃ t v,
    run es.length s = .next t ∧ run (es.filter keptEvent).length u = .next v ∧
      State.SameEngine t v := by
  induction es generalizing s u with
  | nil => exact ⟨s, u, rfl, rfl, hsame⟩
  | cons e rest ih =>
    obtain ⟨s', hs, effect, hk'⟩ := step_allowed hf hi hk
    have hf' : s'.fault = false := effect.running hf
    have hi' : s'.input = rest := effect.keeps_input
    have htaken : State.SameEngine (takeInput rest s) u :=
      sameEngine_trans (sameEngine_symm (sameEngine_takeInput rest s)) hsame
    rw [List.length_cons, run_succ hs]
    cases hkept : keptEvent e with
    | false =>
      rw [List.filter_cons_of_neg (by simp [hkept])] at hu ⊢
      have hsame' : State.SameEngine s' u :=
        sameEngine_trans (sameEngine_symm (effect.sameEngine_of_read hkept)) htaken
      exact ih hf' hk' hi' hsame' hu
    | true =>
      rw [List.filter_cons_of_pos hkept] at hu ⊢
      obtain ⟨u', hstep, hsame'⟩ := effect.step_sameEngine_of_kept hkept htaken hf hu
      have hu' : u'.input = rest.filter keptEvent := by rw [step_input hstep, hu, List.tail_cons]
      rw [List.length_cons, run_succ hstep]
      exact ih hf' hk' hi' hsame' hu'

end Sys2Proof.Machine

open Sys2Proof Sys2Proof.Machine

/-- Settles O52, by induction on the events (`run_filter_keptEvent`): under the contract a reading
command leaves the same engine, and every other event does the same to two copies of one engine. -/
theorem readingCommandsNeverMatterLater : Obligations.ReadingCommandsNeverMatterLater := by
  intro s hf hk
  exact run_filter_keptEvent s.input hf hk rfl (sameEngine_ports s _ s.responses) rfl

/-- Settles O38: a FOLD stream, then digits and an RDC. The first RDC writes no register, so the
loop over the further digits starts where that of the prefix ended. -/
theorem midStreamReadGivesThePrefixFold : Obligations.MidStreamReadGivesThePrefixFold := by
  intro s q more later hf
  have split : commands (foldStream q.operands ++ seqStream (more.map digitBits) ++ [.rdc]) ++ later
      = commands (foldStream q.operands) ++
          (commands (seqStream (more.map digitBits) ++ [.rdc]) ++ later) := by
    simp [commands]
  have first := run_foldStream (s := { s with input := commands _ ++ later }) q _ hf split
  have second := run_seqStream_rdc more later hf rfl rfl
    (s := respond (dataByte (digitBits (fold s.params.tables q))) (afterSequence q _ s))
  have steps : q.toList.length + more.length + 3 =
      q.toList.length + 2 + (more.length + 1) := by omega
  rw [steps]
  refine ⟨_, (run_add _ first).trans second, ?_, rfl⟩
  rw [← foldFrom_fold, ← afterSequence_responses q later s]
  rfl

/-- Settles O50: the results are ACC, its inverse and whether it is 0; in a group the inverse of
ACC is 0 exactly when ACC is. -/
theorem resultCommandsAgree : Obligations.ResultCommandsAgree := by
  intro s hp hf hn
  have hw : s.params.hasWrapper = true := by rw [hp]; rfl
  have htables : s.params.tables = standardTables := by rw [hp]; rfl
  refine ⟨s.acc, readInv s.params.tables s.acc, _, _, exec_of_resultData rfl hf hn, rfl,
    exec_of_resultData (if_pos hw) hf hn, exec_of_resultData (if_pos hw) hf hn, by rw [htables],
    ?_, ?_, ?_⟩
  · simp [dataByte_verdict, dataByte_digitBits_eq_zero]
  · simp [dataByte_verdict, dataByte_digitBits_eq_zero]
  · rw [htables, readInv_eq_zero standardTables_groupLaws]

/-- Settles O8: the result of RDC is ACC, and an empty sequence faults. -/
theorem rdcReturnsTheAccumulator : Obligations.RdcReturnsTheAccumulator :=
  ⟨rfl, fun _ => rfl, fun _ hf hn => exec_of_resultData rfl hf hn,
    fun _ hf hn => exec_of_raises (.emptyRdc hn) hf⟩

/-- Settles O9: the result of GEN is INV[ACC]; an empty sequence faults, and so does the absent
wrapper. -/
theorem genReturnsTheInverse : Obligations.GenReturnsTheInverse :=
  ⟨rfl, rfl, rfl, fun _ hf hw hn => exec_of_resultData (if_pos hw) hf hn,
    fun _ hf hw hn => exec_of_raises (.emptyGen hw hn) hf,
    fun _ hf hw => exec_of_raises (.noGen hw) hf⟩

/-- Settles O10: the result of VAL is the verdict on ACC; it faults as GEN does. -/
theorem valReturnsTheVerdict : Obligations.ValReturnsTheVerdict := by
  refine ⟨rfl, rfl, rfl, fun s hf hw hn => ?_,
    fun _ hf hw hn => exec_of_raises (.emptyVal hw hn) hf,
    fun _ hf hw => exec_of_raises (.noVal hw) hf⟩
  rw [← dataByte_verdict]
  exact exec_of_resultData (if_pos hw) hf hn

end

section
/-!
PROOFS. The statements of spec/42_system.md: the fields of the status byte (R29, R140) and its value
after reset.
-/

namespace Sys2Proof.Machine

/-- `STATUS = {FAULT, CAUSE[1:0], NE, HAS_WRAPPER, POS[2:0]}`, field by field (R29). -/
theorem statusByte_fields (s : State) :
    (statusByte s).getLsbD 7 = s.fault ∧ (statusByte s).extractLsb' 5 2 = s.cause ∧
    (statusByte s).getLsbD 4 = s.ne ∧ (statusByte s).getLsbD 3 = s.params.hasWrapper ∧
    (statusByte s).extractLsb' 0 3 = s.pos := by
  have fields : ∀ (f n w : Bool) (c : BitVec 2) (p : BitVec 3),
      let b := flagBit f ++ c ++ flagBit n ++ flagBit w ++ p
      b.getLsbD 7 = f ∧ b.extractLsb' 5 2 = c ∧ b.getLsbD 4 = n ∧ b.getLsbD 3 = w ∧
        b.extractLsb' 0 3 = p := by decide
  exact fields s.fault s.ne s.params.hasWrapper s.cause s.pos

/-- After reset only HAS_WRAPPER can be set (R32, R140). -/
theorem statusByte_launch (p : Config) :
    statusByte (State.launch p) = if p.hasWrapper then 0x08#8 else 0x00#8 := by
  have value : ∀ w : Bool, flagBit false ++ 0#2 ++ flagBit false ++ flagBit w ++ 0#3 =
      if w then 0x08#8 else 0x00#8 := by decide
  exact value p.hasWrapper

end Sys2Proof.Machine

open Sys2Proof Sys2Proof.Machine

/-- Settles O11: STAT responds with the status byte in both fault states, and a word 0x5x with a
non-zero operand is reserved. -/
theorem statReturnsTheStatusRegister : Obligations.StatReturnsTheStatusRegister := by
  refine ⟨rfl, fun _ => rfl, fun s => ⟨statusByte s, rfl, statusByte_fields s⟩, fun p => ?_,
    fun s a rest hf ha => ?_⟩
  · rw [← statusByte_launch]
    rfl
  · have reserved := reservedWord_of_arg_ne_zero (op := 0x5#4) s.params.hasWrapper (by decide) ha
    exact reservedWordsRaiseIllegalCommand s _ rest hf reserved

end

section
/-!
PROOFS. The statements of spec/45_sequence_operations.md. First what a change in a sequence does to
its product (R158 to R161); then a running engine and the host's contract (R165, R218); last the
engine between any earlier responses and any later events (R157).
-/

namespace Sys2Proof.Machine

variable {s u : State}

/-! ### Changing a part of a sequence -/

section
variable {t : Tables} {before after old new : List Digit}

theorem permutedProduct_singleton (g : t.GroupLaws) (p : BitVec 3) (x : Digit) :
    permutedProduct t p [x] = readNum t p x := by
  obtain ⟨-, ident, -, -⟩ := g
  exact (ident _).2

theorem permutedProduct_pair (g : t.GroupLaws) (p : BitVec 3) (x y : Digit) :
    permutedProduct t p [x, y] = readD t (readNum t p x) (readNum t (p + 1#3) y) := by
  rw [permutedProduct_cons, permutedProduct_singleton g]

/-- The loop's result is a product with one factor for a part of the sequence; the factors on both
sides of it cancel. -/
theorem permutedProduct_eq_of_foldFrom_eq (g : t.GroupLaws) {c : Digit} {p : BitVec 3}
    (hlen : old.length = new.length)
    (h : foldFrom t c p (before ++ (old ++ after)) = foldFrom t c p (before ++ (new ++ after))) :
    permutedProduct t (p + BitVec.ofNat 3 before.length) old =
      permutedProduct t (p + BitVec.ofNat 3 before.length) new := by
  simp only [foldFrom_append, hlen, foldFrom_eq_readD_permutedProduct g _ _ after] at h
  have right_cancelled := readD_right_cancel g h
  simp only [foldFrom_eq_readD_permutedProduct g _ _ old,
    foldFrom_eq_readD_permutedProduct g _ _ new] at right_cancelled
  exact readD_left_cancel g right_cancelled

theorem validate_eq_invalid {q : DigitSeq} : validate t q = .invalid ↔ fold t q ≠ 0 := by
  simp [validate]

/-- Exchanging a part of a Valid sequence for one of the same length and another product is
detected. -/
theorem validate_invalid_of_changed_product (g : t.GroupLaws) {q r : DigitSeq}
    (hq : q.toList = before ++ (old ++ after)) (hr : r.toList = before ++ (new ++ after))
    (hlen : old.length = new.length)
    (hne : permutedProduct t (0#3 + BitVec.ofNat 3 before.length) old ≠
      permutedProduct t (0#3 + BitVec.ofNat 3 before.length) new)
    (hvalid : validate t q = .valid) : validate t r = .invalid := by
  have hzero : fold t q = 0 := validate_eq_valid.mp hvalid
  refine validate_eq_invalid.mpr fun hr_zero => hne ?_
  have hsame : fold t q = fold t r := hzero.trans hr_zero.symm
  rw [fold, fold, hq, hr] at hsame
  exact permutedProduct_eq_of_foldFrom_eq g hlen hsame

end

/-! ### The order of the host's string -/

/-- Behind the first digit, position `j` of the reversed rest is character `n - (j + 1)`. -/
theorem order_toList_succ (q : DigitSeq) {j : Nat} (hj : j < q.rest.length) :
    (order q).toList[j + 1]? = q.toList[q.rest.length - j]? := by
  obtain ⟨m, hm⟩ : ∃ m, q.rest.length - j = m + 1 := ⟨q.rest.length - j - 1, by omega⟩
  rw [hm, DigitSeq.toList, DigitSeq.toList, List.getElem?_cons_succ, List.getElem?_cons_succ]
  calc q.rest.reverse[j]? = q.rest[q.rest.length - 1 - j]? := List.getElem?_reverse hj
    _ = q.rest[m]? := by congr 1; omega

/-! ### Runs and the parameters -/

theorem run_keeps_params {k : Nat} (h : run k s = .next u) : u.params = s.params := by
  induction k generalizing s with
  | zero =>
    obtain rfl : s = u := by simpa using h
    rfl
  | succ k ih =>
    obtain ⟨s', hs⟩ := step_next s
    rw [run_succ hs] at h
    rw [ih h, step_keeps_params hs]

/-! ### Runs and the host's contract (R218) -/

theorem run_running_of_hostKeeps (hf : s.fault = false)
    (hk : hostKeeps s.params.hasWrapper s.ne s.input = true) :
    ∃ t, run s.input.length s = .next t ∧ t.fault = false := by
  induction hi : s.input generalizing s with
  | nil => exact ⟨s, rfl, hf⟩
  | cons e rest ih =>
    rw [hi] at hk
    obtain ⟨s', hs, effect, hk'⟩ := step_allowed hf hi hk
    have hi' : s'.input = rest := effect.keeps_input
    obtain ⟨t, ht, running⟩ := ih (effect.running hf) (by rwa [hi']) hi'
    exact ⟨t, (run_succ hs).trans ht, running⟩

/-- Where a host breaks the contract with a command or behind it, the command faults, or what
follows it breaks the contract. -/
theorem exec_of_broken_contract {i : Instr} {es : List HostInput} (hf : s.fault = false)
    (hwf : i.wf s.params.hasWrapper = true)
    (hk : hostKeeps s.params.hasWrapper s.ne (.command (encode i) :: es) = false)
    (h : exec i s = .next u) :
    u.fault = true ∨ (u.fault = false ∧ hostKeeps u.params.hasWrapper u.ne es = false) := by
  simp only [hostKeeps, decode_encode hwf] at hk
  rcases exec_cases h with ⟨rfl, rfl⟩ | ⟨-, faulted, -⟩ | ⟨-, k, -, rfl⟩ | ⟨-, rfl, rfl⟩ |
    ⟨-, d, rfl, rfl⟩ | ⟨-, hn, x, hx, rfl⟩
  · exact .inr ⟨hf, hk⟩
  · simp [hf] at faulted
  · exact .inl rfl
  · exact .inr ⟨hf, hk⟩
  · exact .inr ⟨hf, by simpa using hk⟩
  · cases i with
    | init | abs | stat => simp [resultData] at hx
    | rdc | gen | val => exact .inr ⟨hf, by simpa [hn] using hk⟩

/-- The same of any command word: a reserved one faults (R87). -/
theorem execWord_of_broken_contract {w : Byte} {es : List HostInput} (hf : s.fault = false)
    (hk : hostKeeps s.params.hasWrapper s.ne (.command w :: es) = false)
    (h : execWord w s = .next u) :
    u.fault = true ∨ (u.fault = false ∧ hostKeeps u.params.hasWrapper u.ne es = false) := by
  rcases execWord_cases h with ⟨i, hi, hexec⟩ | ⟨r, -, hreserved⟩
  · obtain rfl := encode_of_decode hi
    exact exec_of_broken_contract hf (wf_of_decode hi) hk hexec
  · rcases execReserved_cases hreserved with ⟨faulted, -⟩ | ⟨-, rfl⟩
    · simp [hf] at faulted
    · exact .inl rfl

/-- Without a reset the fault that a broken contract raises lasts to the end of the input. -/
theorem run_faulted_of_broken_contract (hf : s.fault = false) (hreset : HostInput.reset ∉ s.input)
    (hk : hostKeeps s.params.hasWrapper s.ne s.input = false) :
    ∃ t, run s.input.length s = .next t ∧ t.fault = true := by
  induction hi : s.input generalizing s with
  | nil => simp [hi, hostKeeps] at hk
  | cons e rest ih =>
    rw [hi] at hk hreset
    obtain ⟨hfirst, hrest⟩ := List.ne_and_not_mem_of_not_mem_cons hreset
    cases e with
    | reset => exact absurd rfl hfirst
    | command w =>
      obtain ⟨s', hs⟩ := step_next s
      have hi' : s'.input = rest := by rw [step_input hs, hi, List.tail_cons]
      have hword : execWord w (takeInput rest s) = .next s' := (step_of_command hi).symm.trans hs
      rw [List.length_cons, run_succ hs]
      rcases execWord_of_broken_contract (s := takeInput rest s) hf hk hword with
        faulted | ⟨running, hk'⟩
      · have noReset : HostInput.reset ∉ s'.input.take rest.length := by
          rw [hi']
          exact fun hmem => hrest (List.mem_of_mem_take hmem)
        obtain ⟨t, ht, -, -, -, -, hfault, -⟩ :=
          run_sameEngine_of_faulted rest.length faulted noReset
        exact ⟨t, ht, by rw [← hfault, faulted]⟩
      · exact ih running (by rwa [hi']) (by rwa [hi']) hi'

/-! ### The engine between other events and other responses (R157) -/

/-- The same engine with `later` presented behind its input and `earlier` responses given before its
own. -/
def withContext (later : List HostInput) (earlier : List Byte) (s : State) : State :=
  { s with input := s.input ++ later, responses := earlier ++ s.responses }

variable (later : List HostInput) (earlier : List Byte)

/-! The shared operations neither read the ports nor write an earlier response: each commutes with
`withContext`. -/

theorem withContext_respond (r : Byte) (s : State) :
    withContext later earlier (respond r s) = respond r (withContext later earlier s) := by
  simp [withContext, respond]

theorem withContext_raise (k : FaultCause) (s : State) :
    withContext later earlier (raise k s) = raise k (withContext later earlier s) :=
  withContext_respond later earlier _ _

theorem withContext_answerFaulted (s : State) :
    withContext later earlier (answerFaulted s) = answerFaulted (withContext later earlier s) :=
  withContext_respond later earlier _ _

theorem raises_withContext {i : Instr} {k : FaultCause} (h : Raises s i k) :
    Raises (withContext later earlier s) i k := by
  cases h with
  | digitRange hv => exact .digitRange hv
  | emptyRdc hn => exact .emptyRdc hn
  | emptyGen hw hn => exact .emptyGen hw hn
  | emptyVal hw hn => exact .emptyVal hw hn
  | noGen hw => exact .noGen hw
  | noVal hw => exact .noVal hw

/-- A faulted engine answers every command but STAT with the fault byte (R187). -/
theorem exec_faulted {i : Instr} (hi : i ≠ .stat) (hf : s.fault = true) :
    exec i s = .next (answerFaulted s) := by
  cases i with
  | stat => exact absurd rfl hi
  | init | abs | rdc | gen | val => exact whenRunning_faulted hf

/-- No command reads the ports, and each gives its response after the earlier ones. -/
theorem exec_withContext {i : Instr} (h : exec i s = .next u) :
    exec i (withContext later earlier s) = .next (withContext later earlier u) := by
  rcases exec_cases h with ⟨rfl, rfl⟩ | ⟨hi, hf, rfl⟩ | ⟨hf, k, hk, rfl⟩ | ⟨hf, rfl, rfl⟩ |
    ⟨hf, d, rfl, rfl⟩ | ⟨hf, hn, x, hx, rfl⟩
  · rw [withContext_respond]
    rfl
  · rw [withContext_answerFaulted]
    exact exec_faulted hi hf
  · rw [withContext_raise]
    exact exec_of_raises (raises_withContext later earlier hk) hf
  · rw [withContext_respond]
    exact exec_init_running hf
  · rw [withContext_respond]
    exact exec_abs_digitBits_running d hf
  · rw [withContext_respond]
    exact exec_of_resultData hx hf hn

theorem execReserved_withContext (h : execReserved s = .next u) :
    execReserved (withContext later earlier s) = .next (withContext later earlier u) := by
  rcases execReserved_cases h with ⟨hf, rfl⟩ | ⟨hf, rfl⟩
  · rw [withContext_answerFaulted]
    exact whenRunning_faulted hf
  · rw [withContext_raise]
    exact whenRunning_running hf

theorem execWord_withContext {w : Byte} (h : execWord w s = .next u) :
    execWord w (withContext later earlier s) = .next (withContext later earlier u) := by
  rcases execWord_cases h with ⟨i, hi, hexec⟩ | ⟨r, hr, hreserved⟩
  · simpa only [execWord, withContext, hi] using exec_withContext later earlier hexec
  · simpa only [execWord, withContext, hr] using execReserved_withContext later earlier hreserved

/-- A step that serves an event of its own does the same in any context. -/
theorem step_withContext (hi : s.input ≠ []) (h : step s = .next u) :
    step (withContext later earlier s) = .next (withContext later earlier u) := by
  have presented {e : HostInput} {rest : List HostInput} (he : s.input = e :: rest) :
      (withContext later earlier s).input = e :: (rest ++ later) := by simp [withContext, he]
  rcases step_cases h with ⟨hwait, -⟩ | ⟨rest, he, rfl⟩ | ⟨w, rest, he, hword⟩
  · exact absurd hwait hi
  · exact step_of_reset (presented he)
  · exact (step_of_command (presented he)).trans (execWord_withContext later earlier hword)

theorem run_withContext (h : run s.input.length s = .next u) :
    run s.input.length (withContext later earlier s) = .next (withContext later earlier u) := by
  induction hi : s.input generalizing s with
  | nil =>
    obtain rfl : s = u := by simpa [hi] using h
    rfl
  | cons e rest ih =>
    obtain ⟨s', hs⟩ := step_next s
    have hi' : s'.input = rest := by rw [step_input hs, hi, List.tail_cons]
    have hstep := step_withContext later earlier (by simp [hi]) hs
    rw [hi, List.length_cons, run_succ hs, ← hi'] at h
    rw [List.length_cons, run_succ hstep]
    exact ih h hi'

/-- Two copies of one engine that are presented the same events differ in the context alone. -/
theorem eq_withContext_of_sameEngine (h : State.SameEngine s u) (events : List HostInput) :
    { u with input := events ++ later } =
      withContext later u.responses { s with input := events, responses := [] } := by
  rw [eq_of_sameEngine h]
  simp [withContext]

end Sys2Proof.Machine

open Sys2Proof Sys2Proof.Machine

/-- Settles O40: the check digit is the one digit that makes the number Valid. -/
theorem generatedCheckDigitValidates : Obligations.GeneratedCheckDigitValidates := by
  intro t b laws
  exact (checkDigitIsUnique t b _ laws).mpr rfl

/-- Settles O41: the COMPUTE stream answers the check digit and keeps the tables and the wrapper, so
the VALIDATE stream answers the verdict on the number with that digit. -/
theorem engineValidatesWhatItGenerates : Obligations.EngineValidatesWhatItGenerates := by
  intro s b laws hw hf
  obtain ⟨t, ht, hcomputed, hft, -⟩ := computeStreamAnswersTheCheckDigit s b [] hf hw
  have hparams : t.params = s.params := by rw [run_keeps_params ht]
  obtain ⟨u, hu, hvalidated, -⟩ := validateStreamAnswersTheVerdict t
    { first := computeCheckDigit s.params.tables b, rest := b } [] hft (by rw [hparams, hw])
  rw [List.append_nil] at ht hu
  refine ⟨computeCheckDigit s.params.tables b, t, u, ht, ?_, hu, ?_⟩
  · rw [hcomputed, List.getLast?_concat]
    rfl
  · rw [hvalidated, List.getLast?_concat, hparams,
      if_pos (generatedCheckDigitValidates s.params.tables b laws)]

/-- Settles O43: the changed digit is another factor of the product, because each row of NUM is a
bijection. -/
theorem singleDigitErrorIsDetected : Obligations.SingleDigitErrorIsDetected := by
  rintro t q r before after x y ⟨-, -, rows⟩ laws hq hr hxy hvalid
  refine validate_invalid_of_changed_product (old := [x]) (new := [y]) laws hq hr rfl ?_ hvalid
  rw [permutedProduct_singleton laws, permutedProduct_singleton laws]
  obtain ⟨injective, -⟩ := rows (0#3 + BitVec.ofNat 3 before.length).toFin
  exact fun h => hxy (injective x y h)

/-- Settles O44: the exchanged digits are other factors, by the anti-symmetry of R58(f). -/
theorem adjacentTranspositionIsDetected : Obligations.AdjacentTranspositionIsDetected := by
  intro t q r before after x y _ laws anti hq hr hxy hvalid
  refine validate_invalid_of_changed_product (old := [x, y]) (new := [y, x]) laws hq hr rfl ?_
    hvalid
  rw [permutedProduct_pair laws, permutedProduct_pair laws]
  exact anti (0#3 + BitVec.ofNat 3 before.length).toFin x y hxy

/-- Settles O51, by induction on the events in both directions: an allowed event leaves the engine
running, and the first one that is not allowed faults it for good, unless a reset follows. -/
theorem engineFaultsExactlyWhenTheHostBreaksTheContract :
    Obligations.EngineFaultsExactlyWhenTheHostBreaksTheContract := by
  refine ⟨fun s hf hk => run_running_of_hostKeeps hf hk, fun s hf hreset => ?_⟩
  cases hk : hostKeeps s.params.hasWrapper s.ne s.input with
  | true =>
    obtain ⟨t, ht, running⟩ := run_running_of_hostKeeps hf hk
    exact ⟨t, ht, by simp [running]⟩
  | false =>
    obtain ⟨t, ht, faulted⟩ := run_faulted_of_broken_contract hf hreset hk
    exact ⟨t, ht, by simp [faulted]⟩

/-- Settles O53: both runs are the run of the engine over the events alone, each put into its own
context (`run_withContext`). -/
theorem responsesDependOnStateAndCommandsOnly :
    Obligations.ResponsesDependOnStateAndCommandsOnly := by
  intro s s' events later later' hsame
  obtain ⟨alone, hrun, -⟩ := run_serves_input { s with input := events, responses := [] }
  refine ⟨withContext later s.responses alone, withContext later' s'.responses alone,
    alone.responses, ?_, ?_, rfl, rfl, rfl, rfl, rfl, rfl, rfl, rfl⟩
  · rw [eq_withContext_of_sameEngine later (sameEngine_refl s)]
    exact run_withContext later s.responses hrun
  · rw [eq_withContext_of_sameEngine later' hsame]
    exact run_withContext later' s'.responses hrun

/-- Settles O45, by folding the four sequences on the supplied cells. -/
theorem orderOfDigitsMattersAndHasItsLimit : Obligations.OrderOfDigitsMattersAndHasItsLimit :=
  ⟨⟨rfl, rfl⟩, ⟨rfl, rfl⟩, rfl, rfl⟩

/-- Settles O46: behind the first character, `order` reads the rest from its end. -/
theorem orderReversesAllButTheFirst : Obligations.OrderReversesAllButTheFirst := by
  refine fun s => ⟨rfl, order_toList_length s, fun i hpos hi => ?_⟩
  obtain ⟨j, rfl⟩ := Nat.exists_eq_add_of_le' hpos
  have hlen : s.toList.length = s.rest.length + 1 := rfl
  rw [hlen, Nat.add_sub_add_right]
  exact order_toList_succ s (by omega)

/-- Settles O47: row 0 of NUM and the left factor 0 of D leave the one digit as it is. -/
theorem singleDigitSequences : Obligations.SingleDigitSequences := by
  have single (v : Digit) : fold standardTables ⟨v, []⟩ = v := by
    obtain ⟨-, ident, -, -⟩ := standardTables_groupLaws
    exact (fold_eq_readD_first standardTables_groupLaws ⟨v, []⟩).trans (ident v).2
  exact ⟨single, rfl, fun v => by rw [validate_eq_valid, single]⟩

end

section
/-!
PROOFS. The statements of spec/60_exceptions.md. First R181's table on the bits of a command word, and
that a word faults a running engine exactly as the table says, or else answers; then the faulted engine
(R187); last a step of one engine among several (R195).
-/

namespace Sys2Proof

/-- A word of no row of the opcode map (R85) is reserved by its bits, with or without the wrapper. -/
theorem reservedWord_of_no_row {w : Byte} (hw : Bool) (habs : opField w ≠ 0x1#4)
    (hrow : w ∉ [0x00#8, 0x20#8, 0x30#8, 0x40#8, 0x50#8]) : ReservedWord hw w := by
  have bits : ∀ w : Byte, opField w ≠ 0x1#4 → w ∉ [0x00#8, 0x20#8, 0x30#8, 0x40#8, 0x50#8] →
      6 ≤ (opField w).toNat ∨ ((opField w).toNat ∈ [0, 2, 3, 4, 5] ∧ argField w ≠ 0#4) := by decide
  rcases bits w habs hrow with hop | harg
  · exact .inl hop
  · exact .inr (.inl harg)

/-- A wrapper command is reserved exactly without the wrapper (R87(c)). -/
theorem wrapped_eq_reserved {hw : Bool} {i : Instr} {r : Reserved}
    (h : wrapped hw i = .reserved r) : hw = false := by
  cases hw with
  | false => rfl
  | true => simp [wrapped] at h

/-- The converse of `decode_of_reservedWord`: what decodes to no command is reserved by its bits
(R87). -/
theorem reservedWord_of_decode {hw : Bool} {w : Byte} {r : Reserved}
    (h : decode hw w = .reserved r) : ReservedWord hw w := by
  unfold decode at h
  split_ifs at h with habs hinit hrdc hstat hgen hval
  · exact .inr (.inr ⟨wrapped_eq_reserved h, .inl hgen⟩)
  · exact .inr (.inr ⟨wrapped_eq_reserved h, .inr hval⟩)
  · exact reservedWord_of_no_row hw habs (by simp [hinit, hrdc, hstat, hgen, hval])

namespace Machine

variable {s t : State} {w : Byte}

/-! ### The cause table (R181) -/

/-- R181's table on the bits of the word: the words that raise a fault, and the condition on the
engine. -/
def WordRaises (s : State) (w : Byte) : FaultCause → Prop
  | .digitRange => opField w = 0x1#4 ∧ 9#4 < argField w
  | .emptySequence =>
    s.ne = false ∧ (w = 0x20#8 ∨ (s.params.hasWrapper = true ∧ (w = 0x30#8 ∨ w = 0x40#8)))
  | .illegalCommand => ReservedWord s.params.hasWrapper w

/-- The fault of a command is in the table under the command's word. -/
theorem wordRaises_encode {i : Instr} {k : FaultCause} (h : Raises s i k) :
    WordRaises s (encode i) k := by
  cases h with
  | @digitRange v hv =>
    have noDigit : 9#4 < v := BitVec.lt_def.mpr hv
    exact ⟨opField_abs v, by rwa [encode, argField_abs]⟩
  | emptyRdc hn => exact ⟨hn, .inl rfl⟩
  | emptyGen hw hn => exact ⟨hn, .inr ⟨hw, .inl rfl⟩⟩
  | emptyVal hw hn => exact ⟨hn, .inr ⟨hw, .inr rfl⟩⟩
  | noGen hw => exact .inr (.inr ⟨hw, .inl rfl⟩)
  | noVal hw => exact .inr (.inr ⟨hw, .inr rfl⟩)

theorem execWord_encode {i : Instr} (hwf : i.wf s.params.hasWrapper = true) :
    execWord (encode i) s = exec i s := by
  simp only [execWord, decode_encode hwf]

/-- A word that meets a condition of the table faults a running engine with its cause (R186). -/
theorem execWord_of_wordRaises {k : FaultCause} (h : WordRaises s w k) (hf : s.fault = false) :
    execWord w s = .next (raise k s) := by
  cases k with
  | digitRange =>
    obtain ⟨hop, harg⟩ := h
    simp only [execWord, decode_of_opField_one _ hop]
    exact exec_of_raises (.digitRange harg) hf
  | emptySequence =>
    obtain ⟨hn, rfl | ⟨hw, rfl | rfl⟩⟩ := h
    · exact (execWord_encode (i := .rdc) rfl).trans (exec_of_raises (.emptyRdc hn) hf)
    · exact (execWord_encode (i := .gen) hw).trans (exec_of_raises (.emptyGen hw hn) hf)
    · exact (execWord_encode (i := .val) hw).trans (exec_of_raises (.emptyVal hw hn) hf)
  | illegalCommand => exact execWord_of_reservedWord h hf

/-- What a running engine does with a word that raises no fault: CAUSE stays, and the response `r`
carries a code only if CAUSE holds one (STAT shows it, R140). -/
structure AnswersRunning (s t : State) (r : Byte) : Prop where
  running : t.fault = false
  keeps_cause : t.cause = s.cause
  response : t.responses = s.responses ++ [r]
  cause_bits : s.cause = 0#2 → r.extractLsb' 5 2 = 0#2

/-- A command of a running engine faults by a condition of R181, or answers. -/
theorem exec_running_cases {i : Instr} (h : exec i s = .next t) (hf : s.fault = false) :
    (∃ k, Raises s i k ∧ t = raise k s) ∨ ∃ r, AnswersRunning s t r := by
  rcases exec_cases h with ⟨rfl, rfl⟩ | ⟨-, faulted, -⟩ | ⟨-, hraise⟩ | ⟨-, -, rfl⟩ |
    ⟨-, d, -, rfl⟩ | ⟨-, -, x, hx, rfl⟩
  · exact .inr ⟨_, hf, rfl, rfl, (responseFormat_statusByte s).cause_bits.trans⟩
  · simp [hf] at faulted
  · exact .inl hraise
  · exact .inr ⟨_, hf, rfl, rfl, fun _ => rfl⟩
  · exact .inr ⟨_, hf, rfl, rfl, fun _ => rfl⟩
  · exact .inr ⟨_, hf, rfl, rfl, fun hc =>
      (responseFormat_dataByte (w := encode i) (resultData_lt hx) hf hc).cause_bits.trans hc⟩

/-- A word of a running engine faults by R181's table, or answers. -/
theorem execWord_running_cases (h : execWord w s = .next t) (hf : s.fault = false) :
    (∃ k, WordRaises s w k ∧ t = raise k s) ∨ ∃ r, AnswersRunning s t r := by
  rcases execWord_cases h with ⟨i, hi, hexec⟩ | ⟨_, hr, hreserved⟩
  · rw [← encode_of_decode hi]
    exact (exec_running_cases hexec hf).imp_left fun ⟨k, hk, ht⟩ => ⟨k, wordRaises_encode hk, ht⟩
  · rcases execReserved_cases hreserved with ⟨faulted, -⟩ | ⟨-, rfl⟩
    · simp [hf] at faulted
    · exact .inl ⟨.illegalCommand, reservedWord_of_decode hr, rfl⟩

/-- A fault of a running engine is fault entry with a cause of the table (R186). -/
theorem execWord_eq_raise_of_fault (h : execWord w s = .next t) (hf : s.fault = false)
    (ht : t.fault = true) : ∃ k, WordRaises s w k ∧ t = raise k s := by
  rcases execWord_running_cases h hf with hraise | ⟨r, answers⟩
  · exact hraise
  · simp [answers.running] at ht

/-- The cause that a word leaves on a running engine names the condition it met (R181). -/
theorem execWord_cause_iff (h : execWord w s = .next t) (hf : s.fault = false) (k : FaultCause) :
    (t.fault = true ∧ t.cause = k.code) ↔ WordRaises s w k := by
  constructor
  · rintro ⟨ht, hcause⟩
    obtain ⟨l, hl, rfl⟩ := execWord_eq_raise_of_fault h hf ht
    obtain rfl : l = k := code_injective hcause
    exact hl
  · intro hk
    obtain rfl : raise k s = t := by simpa [execWord_of_wordRaises hk hf] using h
    exact ⟨raise_fault s k, raise_cause s k⟩

/-- Every word of a running engine gets a response that carries the code of the fault it raised, and
without a fault CAUSE stays (R81, R181). -/
theorem execWord_running_response (h : execWord w s = .next t) (hf : s.fault = false) :
    ∃ r, t.responses = s.responses ++ [r] ∧
      (t.fault = true → t.cause ≠ 0#2 ∧ r.extractLsb' 5 2 = t.cause) ∧
      (t.fault = false → t.cause = s.cause ∧ (s.cause = 0#2 → r.extractLsb' 5 2 = 0#2)) := by
  rcases execWord_running_cases h hf with ⟨k, -, rfl⟩ | ⟨r, answers⟩
  · have format : ResponseFormat w (raise k s) (faultByte k.code) := responseFormat_faultByte rfl
    exact ⟨_, rfl, fun _ => ⟨code_ne_zero k, format.cause_bits⟩, by simp⟩
  · exact ⟨r, answers.response, by simp [answers.running],
      fun _ => ⟨answers.keeps_cause, answers.cause_bits⟩⟩

/-! ### The faulted engine (R187) -/

theorem execWord_faulted (hw : w ≠ 0x50#8) (hf : s.fault = true) :
    execWord w s = .next (answerFaulted s) := by
  cases hd : decode s.params.hasWrapper w with
  | reserved r =>
    simp only [execWord, hd]
    exact whenRunning_faulted hf
  | instr i =>
    have hi : i ≠ .stat := by
      rintro rfl
      exact hw (encode_of_decode hd).symm
    simp only [execWord, hd]
    exact exec_faulted hi hf

theorem statusByte_faulted (hf : s.fault = true) : statusByte s =
    0b1#1 ++ s.cause ++ BitVec.ofBool s.ne ++ BitVec.ofBool s.params.hasWrapper ++ s.pos := by
  rw [statusByte, hf]
  rfl

/-! ### Several instances (R195) -/

theorem stepInstance_of_none {k : Nat} {system : List State} (h : system[k]? = none) :
    stepInstance k system = .next system := by
  simp only [stepInstance, h]

theorem stepInstance_of_some {k : Nat} {system : List State} (h : system[k]? = some s)
    (hs : step s = .next t) : stepInstance k system = .next (system.set k t) := by
  simp only [stepInstance, h, hs]

end Machine

end Sys2Proof

open Sys2Proof Sys2Proof.Machine

/-- Settles O14: a word leaves the code of a fault exactly when it meets the fault's condition, since
no two faults share a code. -/
theorem faultCodesNameTheirConditions : Obligations.FaultCodesNameTheirConditions := by
  intro s w rest hf
  obtain ⟨t, ht⟩ := execWord_next w { s with input := rest }
  obtain ⟨r, hr, hfaulted, hanswered⟩ := execWord_running_response ht hf
  have names := execWord_cause_iff ht hf
  exact ⟨t, r, (step_of_command rfl).trans ht, hr, names .digitRange, names .emptySequence,
    names .illegalCommand, hfaulted, hanswered⟩

/-- Settles O12: the three result words are the table's row for EmptySequence, and CAUSE names the
row. -/
theorem resultOfTheEmptySequenceFaults : Obligations.ResultOfTheEmptySequenceFaults := by
  refine ⟨fun s w rest hf hn hword => ?_, fun s w rest t hf hstep ht hcause => ?_⟩
  · have raises : WordRaises { s with input := rest } w .emptySequence := ⟨hn, hword⟩
    exact (step_of_command rfl).trans (execWord_of_wordRaises raises hf)
  · have hexec : execWord w { s with input := rest } = .next t := hstep
    obtain ⟨hn, hword⟩ := (execWord_cause_iff hexec hf .emptySequence).mp ⟨ht, hcause⟩
    exact ⟨hn, hword.imp_right And.right⟩

/-- Settles O24: a fault of a running engine is fault entry and nothing else, for each of the three
causes. -/
theorem faultEntryIsPrecise : Obligations.FaultEntryIsPrecise := by
  intro s w rest t hf hstep ht
  have hexec : execWord w { s with input := rest } = .next t := hstep
  obtain ⟨k, -, rfl⟩ := execWord_eq_raise_of_fault hexec hf ht
  refine ⟨k.code, ?_, ?_⟩
  · cases k <;> decide
  · cases k <;> rfl

/-- Settles O25: only the word 0x50 decodes to STAT, and every other word or command of a faulted
engine gets the fault byte. -/
theorem faultStateAnswersOnlyStat : Obligations.FaultStateAnswersOnlyStat := by
  refine ⟨fun s w rest hf hw => ?_, fun s rest hf => ?_, fun s i hf hi => exec_faulted hi hf⟩
  · exact (step_of_command rfl).trans (execWord_faulted (s := { s with input := rest }) hw hf)
  · rw [← statusByte_faulted hf]
    exact (step_of_command rfl).trans (execWord_encode (i := .stat) rfl)

/-- Settles O55: the stepped engine is written back at its own place in the list. -/
theorem instancesDoNotTouchEachOther : Obligations.InstancesDoNotTouchEachOther := by
  intro system k
  cases hk : system[k]? with
  | none => exact ⟨system, stepInstance_of_none hk, rfl, fun _ _ => rfl, by simp⟩
  | some s =>
    obtain ⟨t, ht⟩ := step_next s
    obtain ⟨hlt, -⟩ := List.getElem?_eq_some_iff.mp hk
    refine ⟨system.set k t, stepInstance_of_some hk ht, List.length_set,
      fun j hj => List.getElem?_set_ne hj.symm, ?_⟩
    rintro _ ⟨⟩
    exact ⟨t, ht, List.getElem?_set_self hlt⟩

end

section
/-!
PROOFS. The statements of spec/70_reset_and_hazards.md: the reset event (R210), and the engine that
waits for the next command (R221).
-/

namespace Sys2Proof.Machine

variable {s : State}

/-- The step on the one kind of input left: nothing is presented, and the engine waits. -/
theorem step_of_no_input (h : s.input = []) : step s = .next s := by
  simp only [step, serveNext, h]

end Sys2Proof.Machine

open Sys2Proof Sys2Proof.Machine

/-- Settles O3: a served reset writes the five state elements, and the effect of a word on a faulted
engine keeps FAULT. -/
theorem resetEventClearsTheEngine : Obligations.ResetEventClearsTheEngine := by
  refine ⟨fun s rest => (step_of_reset rfl).trans rfl, fun s w rest hf => ?_⟩
  obtain ⟨t, ht, effect⟩ := step_command_effect s w rest
  exact ⟨t, ht, effect.keeps_fault hf⟩

/-- Settles O20: the engine takes nothing from an empty input (log 4). -/
theorem engineWaitsForTheNextCommand : Obligations.EngineWaitsForTheNextCommand :=
  fun _ => step_of_no_input

end
